-- ==== Sys2Proof/Word.lean ====
section
/-!
DEFINITION. The word types of the block (00_scope.md rule R7). The widths CH_W and TIME_W are parameters of rule R6,
so a Channel Value is an `Int` and a time a `Nat`, each with its bound (notes/assumptions/8.md).
-/

namespace Sys2Proof

/-- A byte, `u8` (R7). -/
abbrev Byte := BitVec 8

/-- The time input `now`: unsigned, below `2^TIME_W` (R6, R9). -/
abbrev Time := Nat

/-- An operand of 16 bits, two's complement, `i16`: an axis sample (R150), SET_CHANNEL's value (R75). -/
abbrev Half := BitVec 16

/-- The selector `op[3:0]` of the operation port (30_encoding.md R75). -/
abbrev Sel := BitVec 4

end Sys2Proof
end

