-- ==== Sys2Proof/Config.lean ====
section
/-!
DEFINITION. The parameters of 00_scope.md rule R6 as a configuration record, one field a parameter. A machine carries
its record in `State.cfg` and no operation changes it (20_memory.md R54), so a statement about every state is a
statement about every configuration (notes/assumptions/7.md). `N_AXIS` and `N_SERVO` are the lengths of `axisCh` and
`servoCh`. The layouts of 30_encoding.md R64 to R66 are parameters too: "a model must ... keep variable"
(92_eei_decisions.md, its last paragraph; notes/assumptions/14.md).
-/

namespace Sys2Proof

/-- `MIX_KIND` (R6): differential drive, or servo pass-through. -/
inductive MixKind where
  | diff
  | servo
deriving DecidableEq, Repr

/-- Where the ten fields of the Link Statistics record stand in the payload, each by the index of its byte. The
defaults are R65's, the order of 10_state.md R17. -/
structure LsLayout where
  upRssi1 : Nat := 0
  upRssi2 : Nat := 1
  upLq : Nat := 2
  upSnr : Nat := 3
  ant : Nat := 4
  rfMode : Nat := 5
  upTxpow : Nat := 6
  dnRssi : Nat := 7
  dnLq : Nat := 8
  dnSnr : Nat := 9
deriving DecidableEq, Repr

/-- The payload bytes of the link-statistics fields, in the record's order. -/
def LsLayout.positions (l : LsLayout) : List Nat :=
  [l.upRssi1, l.upRssi2, l.upLq, l.upSnr, l.ant, l.rfMode, l.upTxpow, l.dnRssi, l.dnLq, l.dnSnr]

/-- Where the fields of the battery payload stand: the indices of each field's bytes, most significant byte first, so
that a layout fixes position, width and byte order. The defaults are R66's. -/
structure BtLayout where
  voltage : List Nat := [0, 1]
  current : List Nat := [2, 3]
  capacity : List Nat := [4, 5, 6]
  remaining : Nat := 7
deriving DecidableEq, Repr

/-- The payload bytes of the battery fields, field after field. -/
def BtLayout.positions (l : BtLayout) : List Nat := l.voltage ++ l.current ++ l.capacity ++ [l.remaining]

/-- The parameter record of R6. The default of every field is R6's column "default"; the fields R6 marks OPEN have
no normative default (notes/assumptions/7.md). -/
structure Config where
  /-- `N_CH` -/
  nCh : Nat := 16
  /-- `CH_BITS` -/
  chBits : Nat := 11
  /-- `RC_PAYLOAD` -/
  rcPayload : Nat := 22
  /-- `LS_PAYLOAD` -/
  lsPayload : Nat := 10
  /-- `BT_PAYLOAD` -/
  btPayload : Nat := 8
  /-- `CRC_POLY` -/
  crcPoly : Byte := 0xD5
  /-- `CRC_INIT` -/
  crcInit : Byte := 0x00
  /-- `CRC_REFIN` -/
  crcRefIn : Bool := false
  /-- `CRC_REFOUT` -/
  crcRefOut : Bool := false
  /-- `CRC_XOROUT` -/
  crcXorOut : Byte := 0x00
  /-- `MAX_PAYLOAD` -/
  maxPayload : Nat := 60
  /-- `ADDR_FC` -/
  addrFc : Byte := 0xC8
  /-- `TX_ADDR` -/
  txAddr : Byte := addrFc
  /-- `TYPE_RC` -/
  typeRc : Byte := 0x16
  /-- `TYPE_LS` -/
  typeLs : Byte := 0x14
  /-- `TYPE_BT` -/
  typeBt : Byte := 0x08
  /-- `CH_W`, in bits -/
  chW : Nat := 16
  /-- `CH_CENTER` -/
  chCenter : Int := 1500
  /-- `CH_HALF` -/
  chHalf : Int := 500
  /-- `CH_MIN` -/
  chMin : Int := 1000
  /-- `CH_MAX` -/
  chMax : Int := 2000
  /-- `TIME_W`, in bits -/
  timeW : Nat := 32
  /-- `TIME_UNIT`, in milliseconds; no rule reads it (R222) -/
  timeUnit : Nat := 1
  /-- `T_FS1`, in `TIME_UNIT` -/
  tFs1 : Nat := 1000
  /-- `AXIS_MIN` -/
  axisMin : Int := -32768
  /-- `AXIS_MAX` -/
  axisMax : Int := 32767
  /-- `AXIS_CH[k]`, k = 0 .. N_AXIS-1 (OPEN) -/
  axisCh : List Nat := [1, 2, 3, 4]
  /-- `MIX_KIND` (OPEN) -/
  mixKind : MixKind := .diff
  /-- `MIX_A` (OPEN) -/
  mixA : Nat := 1
  /-- `MIX_B` (OPEN) -/
  mixB : Nat := 2
  /-- `DB_THRESH` (OPEN) -/
  dbThresh : Nat := 10
  /-- `DUTY_MAX` (OPEN) -/
  dutyMax : Nat := 500
  /-- `SERVO_CH[j]`, j = 0 .. N_SERVO-1 (OPEN) -/
  servoCh : List Nat := [1, 2, 3, 4]
  /-- `SAFE_PULSE` -/
  safePulse : Int := chCenter
  /-- `BT_V_DIV` -/
  btVDiv : Nat := 100
  /-- `BT_I_DIV` -/
  btIDiv : Nat := 100
  /-- `CTRL_PERIOD`, in milliseconds; "timing only, no rule depends on it" (R6) -/
  ctrlPeriod : Nat := 10
  /-- The layout of R64: entry `CH_BITS * (i-1) + j` is the payload bit that carries bit `j` of `w[i]`, payload bit
  `8k + b` being bit `b` of byte `k`. The default is R64's, the little-endian bit vector. -/
  rcLayout : List Nat := List.range (nCh * chBits)
  /-- The layout of R65. -/
  lsLayout : LsLayout := {}
  /-- The layout of R66. -/
  btLayout : BtLayout := {}
  /-- Where `wire_to_ch` (40_frame_codec.md R106) departs from its default, the identity: (wire value, Channel
  Value) pairs (notes/assumptions/13.md). -/
  wireOverrides : List (Nat × Int) := []
  /-- Where `ch_to_wire` (R106) departs from its default, saturation to `0 .. 2^CH_BITS - 1`: (Channel Value, wire
  value) pairs (notes/assumptions/13.md). -/
  chOverrides : List (Int × Nat) := []
deriving DecidableEq, Repr

/-- R6's defaults, the configuration of the test vectors of 95_test_vectors.md. -/
def Config.default : Config := {}

/-- `N_AXIS` (R6). -/
abbrev Config.nAxis (c : Config) : Nat := c.axisCh.length

/-- `N_SERVO` (R6). -/
abbrev Config.nServo (c : Config) : Nat := c.servoCh.length

/-- `TYPE_TABLE` (R6, 30_encoding.md R67): the closed enumeration of (type byte, fixed payload size). -/
def Config.typeTable (c : Config) : List (Byte × Nat) :=
  [(c.typeRc, c.rcPayload), (c.typeLs, c.lsPayload), (c.typeBt, c.btPayload)]

/-- An integer as a Channel Value, two's complement signed `CH_W` bits (R7, R11). -/
def Config.toCh (c : Config) (v : Int) : Int := v.bmod (2 ^ c.chW)

/-- The value fits `CH_W` bits, two's complement (R6, R11). -/
def Config.fitsCh (c : Config) (v : Int) : Bool :=
  decide (-(2 ^ c.chW : Int) ≤ 2 * v) && decide (2 * v < (2 ^ c.chW : Int))

/-- The time fits `TIME_W` bits (R6, R9). -/
def Config.fitsTime (c : Config) (t : Time) : Bool := decide (t < 2 ^ c.timeW)

end Sys2Proof
end

