-- ==== Sys2Proof/Machine/Crc.lean ====
section
/-!
DEFINITION. The CRC-8 unit (40_frame_codec.md rules R90, R91). `CRC_REFIN` and `CRC_REFOUT` are parameters of R6 that
no rule uses beyond their names; what they do here is PRESUMED (notes/assumptions/12.md), and with their defaults
`false` the functions are R90 and R91 letter for letter.
-/

namespace Sys2Proof.Machine

/-- One shift of the checksum register (R90's loop body). -/
def crcShift (poly c : Byte) : Byte :=
  if c.getLsbD 7 then (c <<< 1) ^^^ poly else c <<< 1

/-- `n` shifts of the checksum register. -/
def crcShifts (poly : Byte) : Nat → Byte → Byte
  | 0, c => c
  | n + 1, c => crcShifts poly n (crcShift poly c)

/-- A byte with its bits in reverse order (PRESUMED, notes/assumptions/12.md). -/
def reflect (b : Byte) : Byte :=
  (List.range 8).foldl (fun acc i => (acc <<< 1) ||| (if b.getLsbD i then 1 else 0)) 0

/-- `crc8_byte(c, b)` (R90). -/
def crc8Byte (cfg : Config) (c b : Byte) : Byte :=
  crcShifts cfg.crcPoly 8 (c ^^^ (if cfg.crcRefIn then reflect b else b))

/-- The checksum register after the bytes `bs`, started from `c` (R91's loop). -/
def crcRun (cfg : Config) (c : Byte) (bs : List Byte) : Byte :=
  bs.foldl (crc8Byte cfg) c

/-- The checksum a register value stands for: R91's last line, and R98's comparison. -/
def crcFinal (cfg : Config) (c : Byte) : Byte :=
  (if cfg.crcRefOut then reflect c else c) ^^^ cfg.crcXorOut

/-- `crc8(s)` (R91). -/
def crc8 (cfg : Config) (s : List Byte) : Byte :=
  crcFinal cfg (crcRun cfg cfg.crcInit s)

end Sys2Proof.Machine
end

