-- ==== Sys2Proof/Machine/Arith.lean ====
section
/-!
DEFINITION. The arithmetic primitives of 00_scope.md rules R8 and R9, all on `Int`.
-/

namespace Sys2Proof.Machine

/-- `sat(v, lo, hi)` (R8), the spec's one saturation primitive. -/
def sat (v lo hi : Int) : Int :=
  if v < lo then lo else if v > hi then hi else v

/-- `abs(v)` (R8). -/
def absI (v : Int) : Int := if v ≥ 0 then v else -v

/-- `divT(a, b)` (R8): division truncating toward zero. -/
def divT (a b : Int) : Int := a.tdiv b

/-- `db(v)` (R8, 42_channel_mixer.md R158): the deadband. -/
def db (c : Config) (v : Int) : Int := if absI v < (c.dbThresh : Int) then 0 else v

/-- `elapsed(now, then)` (R9): `(now - then) mod 2^TIME_W`. -/
def elapsed (c : Config) (now thn : Time) : Time := (((now : Int) - (thn : Int)) % (2 ^ c.timeW : Int)).toNat

end Sys2Proof.Machine
end

