-- ==== Sys2Proof/Machine/LinkStats.lean ====
section
/-!
DEFINITION. The Link Statistics record (10_state.md R17), one field per payload byte, in payload order (R65).
-/

namespace Sys2Proof.Machine

/-- `ls` (R17). `upSnr` and `dnSnr` are `i8`: their signed readings are `upSnr.toInt` and `dnSnr.toInt` (R68). The
fields hold the payload bytes; reset is every field 0. -/
structure LinkStats where
  upRssi1 : Byte := 0
  upRssi2 : Byte := 0
  upLq : Byte := 0
  upSnr : Byte := 0
  ant : Byte := 0
  rfMode : Byte := 0
  upTxpow : Byte := 0
  dnRssi : Byte := 0
  dnLq : Byte := 0
  dnSnr : Byte := 0
deriving DecidableEq, Repr

end Sys2Proof.Machine
end

