-- ==== Sys2Proof/Machine/Operands.lean ====
section
/-!
DEFINITION. Operand assembly: the multi-byte fields and the payload packers and unpackers (20_memory.md R44 to R46,
30_encoding.md R64 to R68, 40_frame_codec.md R104 to R109).
-/

namespace Sys2Proof.Machine

/-- Byte `k` of an unsigned value: `v[8k+7 : 8k]` (R7). -/
def byteOf (v k : Nat) : Byte := BitVec.ofNat 8 (v / 2 ^ (8 * k))

/-- An unsigned value in `n` bytes, most significant byte first (R45): byte `k` is `v[8(n-1-k)+7 : 8(n-1-k)]`. -/
def beBytes (n v : Nat) : List Byte := (List.range n).map fun k => byteOf v (n - 1 - k)

/-- The unsigned value of bytes, most significant byte first (R45). -/
def beNat (bs : List Byte) : Nat := bs.foldl (fun acc b => acc * 256 + b.toNat) 0

/-- `be16(v)` (R45). -/
def be16 (v : Nat) : List Byte := [byteOf v 1, byteOf v 0]

/-- `be24(v)` (R45). -/
def be24 (v : Nat) : List Byte := [byteOf v 2, byteOf v 1, byteOf v 0]

/-- `from_be16` (R45). -/
def fromBe16 (b0 b1 : Byte) : Nat := b0.toNat * 256 + b1.toNat

/-- `from_be24` (R45). -/
def fromBe24 (b0 b1 b2 : Byte) : Nat := b0.toNat * 65536 + b1.toNat * 256 + b2.toNat

/-- The number whose bit `j` is `f j`, for `j < n`. -/
def bitsNat : Nat → (Nat → Bool) → Nat
  | 0, _ => 0
  | n + 1, f => (f 0).toNat + 2 * bitsNat n fun j => f (j + 1)

/-- Every one of `0 .. n-1` stands in the layout exactly once: `n` entries, each index among them. -/
def layoutCovers (n : Nat) (ps : List Nat) : Bool :=
  decide (ps.length = n) && (List.range n).all fun p => ps.contains p

/-! ## The frame header (R61, R62, R64 to R67) -/

/-- A LEN byte that declares a legal payload length: `2 <= LEN` and `LEN - 2 <= MAX_PAYLOAD` (R62). -/
def lenLegal (c : Config) (len : Byte) : Bool :=
  decide (2 ≤ len.toNat) && decide (len.toNat - 2 ≤ c.maxPayload)

/-- The LEN byte of a frame with `n` payload bytes (R60, R61). -/
def lenByte (n : Nat) : Byte := BitVec.ofNat 8 (n + 2)

/-- LEN and type of a header are those of the format W row with type code `ty` and payload size `size`. -/
def headerIs (ty : Byte) (size : Nat) (len t : Byte) : Bool :=
  decide (t = ty) && decide (len.toNat = size + 2)

/-- The header belongs to one of the three rows of format W "which take priority" over FRAME_OTHER. -/
def headerKnown (c : Config) (len t : Byte) : Bool :=
  headerIs c.typeRc c.rcPayload len t || headerIs c.typeLs c.lsPayload len t ||
    headerIs c.typeBt c.btPayload len t

/-! ## The wire field and the Channel Value (R106) -/

/-- `wire_to_ch(w)` (R106): the identity unless the configuration replaces it. -/
def wireToCh (c : Config) (w : Nat) : Int := (c.wireOverrides.lookup w).getD (w : Int)

/-- `ch_to_wire(v)` (R106): saturation to `0 .. 2^CH_BITS - 1` unless the configuration replaces it. -/
def chToWire (c : Config) (v : Int) : Nat :=
  (c.chOverrides.lookup v).getD (sat v 0 (2 ^ c.chBits - 1)).toNat

/-! ## RC-channels-packed (R64, R104, R105) -/

/-- Bit `p` of a payload: bit `p mod 8` of byte `p div 8` (R64). -/
def payloadBit (payload : List Byte) (p : Nat) : Bool := (payload.getD (p / 8) 0).getLsbD (p % 8)

/-- The little-endian integer of a byte sequence: the sum of `payload[k] << 8k` (R104). -/
def leNat : List Byte → Nat
  | [] => 0
  | b :: bs => b.toNat + 256 * leNat bs

/-- The little-endian bit vector of wire values of `bits` bits each: R64's `P`, the sum of `w[i] << bits*(i-1)`. -/
def packFields (bits : Nat) : List Nat → Nat
  | [] => 0
  | w :: ws => w + 2 ^ bits * packFields bits ws

/-- The wire values `w[1..N_CH]` of an RC payload (R104, R68), each bit from where the layout puts it. Under R64's
layout they are the fields of `leNat payload`. -/
def wireFields (c : Config) (payload : List Byte) : List Nat :=
  (List.range c.nCh).map fun k =>
    bitsNat c.chBits fun j => payloadBit payload (c.rcLayout.getD (c.chBits * k + j) 0)

/-- `unpack_rc(payload)` (R104): the Channel Values, not clamped. -/
def unpackRc (c : Config) (payload : List Byte) : List Int :=
  (wireFields c payload).map fun w => c.toCh (wireToCh c w)

/-- Bit `n` of the wire values laid end to end: bit `n mod CH_BITS` of value `n div CH_BITS`, counted from 0. -/
def wireBit (c : Config) (ws : List Nat) (n : Nat) : Bool := (ws.getD (n / c.chBits) 0).testBit (n % c.chBits)

/-- The payload of wire values, each bit where the layout puts it. Under R64's layout it is the bytes of
`packFields CH_BITS ws`. -/
def packWire (c : Config) (ws : List Nat) : List Byte :=
  (List.range c.rcPayload).map fun k =>
    BitVec.ofNat 8 (bitsNat 8 fun b => wireBit c ws (c.rcLayout.idxOf (8 * k + b)))

/-- `pack_rc(c[1..N_CH])` (R105). -/
def packRc (c : Config) (chs : List Int) : List Byte := packWire c (chs.map (chToWire c))

/-! ## Link statistics (R65, R107) -/

/-- `unpack_ls(payload)` (R107): each field from its payload byte. -/
def unpackLs (c : Config) (payload : List Byte) : LinkStats where
  upRssi1 := payload.getD c.lsLayout.upRssi1 0
  upRssi2 := payload.getD c.lsLayout.upRssi2 0
  upLq := payload.getD c.lsLayout.upLq 0
  upSnr := payload.getD c.lsLayout.upSnr 0
  ant := payload.getD c.lsLayout.ant 0
  rfMode := payload.getD c.lsLayout.rfMode 0
  upTxpow := payload.getD c.lsLayout.upTxpow 0
  dnRssi := payload.getD c.lsLayout.dnRssi 0
  dnLq := payload.getD c.lsLayout.dnLq 0
  dnSnr := payload.getD c.lsLayout.dnSnr 0

/-! ## Battery sensor (R66, R109) -/

/-- A measurement scaled into a field of `n` bytes (R109): truncating division by the divisor, saturated to the
field's width. -/
def scaledField (n v div : Nat) : Nat := (sat (divT v div) 0 (2 ^ (8 * n) - 1)).toNat

/-- The bytes of the battery fields, field after field, each most significant byte first (R109); the capacity is not
scaled. -/
def btFieldBytes (c : Config) (mv ma mah : Nat) (pct : Byte) : List Byte :=
  beBytes c.btLayout.voltage.length (scaledField c.btLayout.voltage.length mv c.btVDiv) ++
    beBytes c.btLayout.current.length (scaledField c.btLayout.current.length ma c.btIDiv) ++
    beBytes c.btLayout.capacity.length (scaledField c.btLayout.capacity.length mah 1) ++ [pct]

/-- `pack_bt(mv, ma, mah, pct)` (R109): every field byte where the layout puts it. -/
def packBt (c : Config) (mv ma mah : Nat) (pct : Byte) : List Byte :=
  (List.range c.btPayload).map fun k => (btFieldBytes c mv ma mah pct).getD (c.btLayout.positions.idxOf k) 0

end Sys2Proof.Machine
end

