-- ==== Sys2Proof/Syntax.lean ====
section
/-!
DEFINITION. The syntax of the block's operations: one constructor per row of spec/opcode_table.json (eleven
operations of the operation port, five reserved selectors, four wire frame types), and the form in which the
environment presents them.
-/

namespace Sys2Proof

/-- One operation of the block (30_encoding.md R75, R76) or one wire frame (R60, R64 to R67) received. -/
inductive Instr where
  /-- RX_BYTE: the byte and the time it is taken (R93). -/
  | rxByte (b : Byte) (now : Time)
  /-- RX_TICK: the bytes the transport has available (R100). -/
  | rxTick (bs : List Byte) (now : Time)
  /-- CTRL_TICK: time, mode selector, one `Option i16` per axis (R150). -/
  | ctrlTick (now : Time) (mixEn : Bool) (axes : List (Option Half))
  /-- SET_CHANNEL: 1-based index and a signed value that fits `i16` (R111). -/
  | setChannel (i : Nat) (v : Half)
  /-- GET_CHANNEL (R112). -/
  | getChannel (i : Nat)
  /-- SEND_CHANNELS (R113). -/
  | sendChannels
  /-- ENCODE: frame type and payload (R101). -/
  | encode (ty : Byte) (payload : List Byte)
  /-- SEND_BATTERY: millivolts, milliamperes, milliampere-hours, percent (R109, R110). -/
  | sendBattery (mv ma mah : Nat) (pct : Byte)
  /-- IS_LINK_UP (R140). -/
  | isLinkUp
  /-- GET_LINK_STATS (R141). -/
  | getLinkStats
  /-- RESET (R210). -/
  | reset
  /-- RESERVED_0: selector 0x0 (R76). -/
  | reserved0
  /-- RESERVED_B: selector 0xB (R76). -/
  | reservedB
  /-- RESERVED_C: selector 0xC (R76). -/
  | reservedC
  /-- RESERVED_D: selector 0xD (R76). -/
  | reservedD
  /-- RESERVED_E: selector 0xE (R76). -/
  | reservedE
  /-- FRAME_RC_CHANNELS_PACKED: LEN and type are fixed by the row (R64); the checksum may be wrong (R98). -/
  | frameRcChannelsPacked (addr : Byte) (payload : List Byte) (checksum : Byte) (now : Time)
  /-- FRAME_LINK_STATISTICS (R65). -/
  | frameLinkStatistics (addr : Byte) (payload : List Byte) (checksum : Byte) (now : Time)
  /-- FRAME_BATTERY_SENSOR (R66). -/
  | frameBatterySensor (addr : Byte) (payload : List Byte) (checksum : Byte) (now : Time)
  /-- FRAME_OTHER: any other header. `body` is the LEN bytes after the LEN byte (type, payload, checksum), or empty
  when LEN is illegal and the frame ends there (R62, R95; notes/assumptions/5.md). -/
  | frameOther (addr len : Byte) (body : List Byte) (now : Time)
deriving DecidableEq, Repr

/-- What the environment presents to the block (notes/assumptions/2.md): an operation on the operation port, the
selector `op[3:0]` "then the operands of the table" (R75), each operand on a lane of its own
(notes/assumptions/3.md); or bytes on the inbound stream, all with one `now` (20_memory.md R41, R100). -/
inductive Presented where
  | port (op : Sel) (lanes : List Int)
  | wire (bytes : List Byte) (now : Time)
deriving DecidableEq, Repr

end Sys2Proof
end

