-- ==== Sys2Proof/WellFormed.lean ====
section
/-!
DEFINITION. Well-formed configurations (the constraints of 00_scope.md R6) and well-formed instructions (operand
shapes that the types of Syntax.lean do not already fix).
-/

namespace Sys2Proof

open Sys2Proof.Machine

/-- Sizes: `N_CH * CH_BITS = 8 * RC_PAYLOAD` and `RC_PAYLOAD, LS_PAYLOAD, BT_PAYLOAD <= MAX_PAYLOAD <= 253` (R6). -/
def Config.wfSizes (c : Config) : Bool :=
  decide (c.nCh * c.chBits = 8 * c.rcPayload) && decide (c.rcPayload ≤ c.maxPayload) &&
    decide (c.lsPayload ≤ c.maxPayload) && decide (c.btPayload ≤ c.maxPayload) &&
    decide (c.maxPayload ≤ 253)

/-- The layouts fit their payloads (notes/assumptions/14.md): the RC layout uses every bit of the payload once ("no
padding and no reserved bit", R64), every link-statistics field stands in a byte of the payload (R65), and the battery
fields use every byte of the payload once (R66). -/
def Config.wfLayouts (c : Config) : Bool :=
  layoutCovers (8 * c.rcPayload) c.rcLayout && c.lsLayout.positions.all (fun p => decide (p < c.lsPayload)) &&
    layoutCovers c.btPayload c.btLayout.positions

/-- The three type codes are distinct (91_not_in_source.md N6; notes/assumptions/15.md). -/
def Config.wfTypes (c : Config) : Bool :=
  decide (c.typeRc ≠ c.typeLs) && decide (c.typeRc ≠ c.typeBt) && decide (c.typeLs ≠ c.typeBt)

/-- Channel values and time: `CH_HALF > 0`, `CH_MIN <= CH_CENTER <= CH_MAX`, the range fits `CH_W` signed bits,
`T_FS1 < 2^TIME_W` (R6). -/
def Config.wfRange (c : Config) : Bool :=
  decide (0 < c.chHalf) && decide (c.chMin ≤ c.chCenter) && decide (c.chCenter ≤ c.chMax) &&
    c.fitsCh c.chMin && c.fitsCh c.chMax && c.fitsTime c.tFs1

/-- Divisors: `AXIS_MAX > 0 > AXIS_MIN` (R6), and no battery divisor is 0 (R8's `divT` needs `b != 0`;
notes/assumptions/15.md). -/
def Config.wfDivisors (c : Config) : Bool :=
  decide (0 < c.axisMax) && decide (c.axisMin < 0) && decide (0 < c.btVDiv) && decide (0 < c.btIDiv)

/-- `1 <= i <= N_CH`: the index names a Channel Store entry (R11). -/
def Config.chanIndex (c : Config) (i : Nat) : Bool := decide (1 ≤ i) && decide (i ≤ c.nCh)

/-- `1 <= MIX_A, MIX_B, AXIS_CH[k], SERVO_CH[j] <= N_CH` (R6). -/
def Config.wfIndices (c : Config) : Bool :=
  c.chanIndex c.mixA && c.chanIndex c.mixB && c.axisCh.all c.chanIndex && c.servoCh.all c.chanIndex

/-- R106's condition `ch_to_wire(wire_to_ch(w)) = w` for every wire value, every Channel Value a wire value gives
fits `CH_W` bits, and a replaced `ch_to_wire` stays inside `0 .. 2^CH_BITS - 1`. -/
def Config.wfWire (c : Config) : Bool :=
  c.chOverrides.all (fun p => decide (p.2 < 2 ^ c.chBits)) &&
    (List.range (2 ^ c.chBits)).all fun w =>
      decide (chToWire c (wireToCh c w) = w) && c.fitsCh (wireToCh c w)

/-- The constraints a configuration must meet (R6, R106). -/
def Config.wf (c : Config) : Bool :=
  c.wfSizes && c.wfTypes && c.wfRange && c.wfDivisors && c.wfIndices && c.wfLayouts && c.wfWire

/-- An axis sample in `AXIS_MIN .. AXIS_MAX`, or unavailable (42_channel_mixer.md R150, R152). -/
def axisLegal (c : Config) : Option Half → Bool
  | none => true
  | some s => decide (c.axisMin ≤ s.toInt) && decide (s.toInt ≤ c.axisMax)

/-- Well-formed instructions. A `now` has `TIME_W` bits (R75). A CTRL_TICK carries `N_AXIS` samples in range; a frame of a format W row carries that
row's payload size; a FRAME_OTHER carries the LEN bytes its LEN byte announces (none when LEN is illegal) and has
none of the three headers that take priority. -/
def Instr.wf (c : Config) : Instr → Bool
  | .rxByte _ now => c.fitsTime now
  | .rxTick _ now => c.fitsTime now
  | .ctrlTick now _ axes => c.fitsTime now && decide (axes.length = c.nAxis) && axes.all (axisLegal c)
  | .setChannel _ _ => true
  | .getChannel _ => true
  | .sendChannels => true
  | .encode _ _ => true
  | .sendBattery _ _ _ _ => true
  | .isLinkUp => true
  | .getLinkStats => true
  | .reset => true
  | .reserved0 => true
  | .reservedB => true
  | .reservedC => true
  | .reservedD => true
  | .reservedE => true
  | .frameRcChannelsPacked _ payload _ now => c.fitsTime now && decide (payload.length = c.rcPayload)
  | .frameLinkStatistics _ payload _ now => c.fitsTime now && decide (payload.length = c.lsPayload)
  | .frameBatterySensor _ payload _ now => c.fitsTime now && decide (payload.length = c.btPayload)
  | .frameOther _ len body now =>
    c.fitsTime now &&
    match body with
    | [] => !lenLegal c len
    | t :: _ => lenLegal c len && decide (body.length = len.toNat) && !headerKnown c len t

end Sys2Proof
end

