-- ==== Sys2Proof/Decode.lean ====
section
/-!
DEFINITION. Decoding what the environment presents, total and rejecting by name, and the encoder.

Format P (30_encoding.md R75) is "`op[3:0]` then the operands of the table"; the spec gives the operands no bit
positions, so each operand stands on a lane of its own, as a number, in the table's order. A byte sequence is its
length followed by its bytes; an axis sample is the pair (1, s) or, unavailable, (0, 0) (notes/assumptions/3.md).
Format W (R60) is the bytes of a frame as they travel, address first. Bytes that hold no whole frame are received as
they are (notes/assumptions/4.md).
-/

namespace Sys2Proof

open Sys2Proof.Machine

/-- Why a presentation is rejected: its lanes are not the operands of its row, or its `now` is no time. -/
inductive DecodeError where
  /-- A lane is missing. -/
  | operandMissing
  /-- A lane is left over. -/
  | operandSurplus
  /-- A `u8` lane does not hold 0 .. 255. -/
  | notByte
  /-- A time does not fit `TIME_W` bits. -/
  | notTime
  /-- A one-bit lane does not hold 0 or 1. -/
  | notBit
  /-- A signed 16-bit lane does not hold -32768 .. 32767. -/
  | notHalf
  /-- An index, a count or an unsigned measurement is negative. -/
  | notUnsigned
  /-- An axis sample outside `AXIS_MIN .. AXIS_MAX`, or an unavailable sample with a value (93_implementation_defined.md U13). -/
  | notSample
deriving DecidableEq, Repr

/-! ## Lanes -/

/-- A `u8` operand. -/
def laneByte (x : Int) : Except DecodeError Byte :=
  if 0 ≤ x ∧ x.toNat < 256 then .ok (BitVec.ofNat 8 x.toNat) else .error .notByte

/-- A `TIME_W`-bit operand. -/
def laneTime (c : Config) (x : Int) : Except DecodeError Time :=
  if 0 ≤ x ∧ c.fitsTime x.toNat then .ok x.toNat else .error .notTime

/-- A one-bit operand. -/
def laneBit (x : Int) : Except DecodeError Bool :=
  if x = 0 then .ok false else if x = 1 then .ok true else .error .notBit

/-- An operand that fits `i16`. -/
def laneHalf (x : Int) : Except DecodeError Half :=
  if -32768 ≤ x ∧ x < 32768 then .ok (BitVec.ofInt 16 x) else .error .notHalf

/-- An index or an unsigned `Int` operand. -/
def laneNat (x : Int) : Except DecodeError Nat :=
  if 0 ≤ x then .ok x.toNat else .error .notUnsigned

/-- An axis sample operand: `some s` is (1, s), `none` is (0, 0). -/
def laneSample (c : Config) (avail s : Int) : Except DecodeError (Option Half) :=
  match laneBit avail with
  | .error e => .error e
  | .ok false => if s = 0 then .ok none else .error .notSample
  | .ok true =>
    match laneHalf s with
    | .error e => .error e
    | .ok h => if axisLegal c (some h) then .ok (some h) else .error .notSample

/-- `n` bytes from the front of the lanes, and the lanes after them. -/
def takeBytes : Nat → List Int → Except DecodeError (List Byte × List Int)
  | 0, xs => .ok ([], xs)
  | _ + 1, [] => .error .operandMissing
  | n + 1, x :: xs =>
    match laneByte x, takeBytes n xs with
    | .ok b, .ok (bs, rest) => .ok (b :: bs, rest)
    | .error e, _ => .error e
    | _, .error e => .error e

/-- A byte sequence operand: its length, then its bytes; and the lanes after it. -/
def takeSequence : List Int → Except DecodeError (List Byte × List Int)
  | [] => .error .operandMissing
  | n :: xs =>
    match laneNat n with
    | .error e => .error e
    | .ok k => takeBytes k xs

/-- `n` axis samples, and nothing after them. -/
def takeSamples (c : Config) : Nat → List Int → Except DecodeError (List (Option Half))
  | 0, [] => .ok []
  | 0, _ :: _ => .error .operandSurplus
  | n + 1, a :: s :: xs =>
    match laneSample c a s, takeSamples c n xs with
    | .ok o, .ok os => .ok (o :: os)
    | .error e, _ => .error e
    | _, .error e => .error e
  | _ + 1, _ => .error .operandMissing

/-- An operation without operands. -/
def noLanes (i : Instr) : List Int → Except DecodeError Instr
  | [] => .ok i
  | _ :: _ => .error .operandSurplus

/-! ## Format P: one decoder per operand shape -/

/-- RX_BYTE's operands: b, now. -/
def lanesRxByte (c : Config) : List Int → Except DecodeError Instr
  | [b, now] =>
    match laneByte b, laneTime c now with
    | .ok b, .ok now => .ok (.rxByte b now)
    | .error e, _ => .error e
    | _, .error e => .error e
  | _ :: _ :: _ :: _ => .error .operandSurplus
  | _ => .error .operandMissing

/-- RX_TICK's operands: bs, now. -/
def lanesRxTick (c : Config) (xs : List Int) : Except DecodeError Instr :=
  match takeSequence xs with
  | .error e => .error e
  | .ok (bs, [now]) =>
    match laneTime c now with
    | .ok now => .ok (.rxTick bs now)
    | .error e => .error e
  | .ok (_, []) => .error .operandMissing
  | .ok (_, _ :: _ :: _) => .error .operandSurplus

/-- CTRL_TICK's operands: now, mix_en, axes[0 .. N_AXIS-1]. -/
def lanesCtrlTick (c : Config) : List Int → Except DecodeError Instr
  | now :: mixEn :: xs =>
    match laneTime c now, laneBit mixEn, takeSamples c c.nAxis xs with
    | .ok now, .ok mixEn, .ok axes => .ok (.ctrlTick now mixEn axes)
    | .error e, _, _ => .error e
    | _, .error e, _ => .error e
    | _, _, .error e => .error e
  | _ => .error .operandMissing

/-- SET_CHANNEL's operands: i, v. -/
def lanesSetChannel : List Int → Except DecodeError Instr
  | [i, v] =>
    match laneNat i, laneHalf v with
    | .ok i, .ok v => .ok (.setChannel i v)
    | .error e, _ => .error e
    | _, .error e => .error e
  | _ :: _ :: _ :: _ => .error .operandSurplus
  | _ => .error .operandMissing

/-- GET_CHANNEL's operand: i. -/
def lanesGetChannel : List Int → Except DecodeError Instr
  | [i] =>
    match laneNat i with
    | .ok i => .ok (.getChannel i)
    | .error e => .error e
  | [] => .error .operandMissing
  | _ :: _ :: _ => .error .operandSurplus

/-- ENCODE's operands: type, payload. -/
def lanesEncode : List Int → Except DecodeError Instr
  | [] => .error .operandMissing
  | t :: xs =>
    match laneByte t, takeSequence xs with
    | .ok t, .ok (payload, []) => .ok (.encode t payload)
    | .ok _, .ok (_, _ :: _) => .error .operandSurplus
    | .error e, _ => .error e
    | _, .error e => .error e

/-- SEND_BATTERY's operands: mv, ma, mah, pct. -/
def lanesSendBattery : List Int → Except DecodeError Instr
  | [mv, ma, mah, pct] =>
    match laneNat mv, laneNat ma, laneNat mah, laneByte pct with
    | .ok mv, .ok ma, .ok mah, .ok pct => .ok (.sendBattery mv ma mah pct)
    | .error e, _, _, _ => .error e
    | _, .error e, _, _ => .error e
    | _, _, .error e, _ => .error e
    | _, _, _, .error e => .error e
  | _ :: _ :: _ :: _ :: _ :: _ => .error .operandSurplus
  | _ => .error .operandMissing

/-- The selector codes of R75 and R76. A reserved selector names no operation, whatever stands on its lanes. -/
def decodePort (c : Config) (op : Sel) (xs : List Int) : Except DecodeError Instr :=
  match op.toNat with
  | 0x0 => .ok .reserved0
  | 0x1 => lanesRxByte c xs
  | 0x2 => lanesRxTick c xs
  | 0x3 => lanesCtrlTick c xs
  | 0x4 => lanesSetChannel xs
  | 0x5 => lanesGetChannel xs
  | 0x6 => noLanes .sendChannels xs
  | 0x7 => lanesEncode xs
  | 0x8 => lanesSendBattery xs
  | 0x9 => noLanes .isLinkUp xs
  | 0xA => noLanes .getLinkStats xs
  | 0xB => .ok .reservedB
  | 0xC => .ok .reservedC
  | 0xD => .ok .reservedD
  | 0xE => .ok .reservedE
  | _ => noLanes .reset xs

/-! ## Format W -/

/-- The frame with address `a`, LEN byte `len` and, after it, type `t`, payload and checksum. The three rows of
format W take priority over FRAME_OTHER (spec/opcode_table.json). -/
def classifyFrame (c : Config) (a len t : Byte) (rest : List Byte) (now : Time) : Instr :=
  if headerIs c.typeRc c.rcPayload len t then
    .frameRcChannelsPacked a rest.dropLast (rest.getLastD 0) now
  else if headerIs c.typeLs c.lsPayload len t then
    .frameLinkStatistics a rest.dropLast (rest.getLastD 0) now
  else if headerIs c.typeBt c.btPayload len t then
    .frameBatterySensor a rest.dropLast (rest.getLastD 0) now
  else .frameOther a len (t :: rest) now

/-- One frame from the front of the inbound bytes and the bytes after it: the decoder "learns the length from byte 1
alone" (R61); an illegal LEN ends the frame at the LEN byte (R95); bytes that hold no whole frame are one RX_TICK. -/
def decodeWire (c : Config) (bytes : List Byte) (now : Time) : Instr × List Byte :=
  match bytes with
  | a :: len :: rest =>
    if lenLegal c len then
      match rest.take len.toNat with
      | t :: body =>
        if rest.length < len.toNat then (.rxTick bytes now, [])
        else (classifyFrame c a len t body now, rest.drop len.toNat)
      | [] => (.rxTick bytes now, [])
    else (.frameOther a len [] now, rest)
  | _ => (.rxTick bytes now, [])

/-- The presentation that remains after one frame: none when every byte is taken. -/
def leftover (bytes : List Byte) (now : Time) : List Presented :=
  match bytes with
  | [] => []
  | _ :: _ => [.wire bytes now]

/-- The decoder: the instruction a presentation begins with, and what remains of the presentation. -/
def decode (c : Config) : Presented → Except DecodeError (Instr × List Presented)
  | .port op xs =>
    match decodePort c op xs with
    | .ok i => .ok (i, [])
    | .error e => .error e
  | .wire bytes now =>
    if c.fitsTime now then .ok ((decodeWire c bytes now).1, leftover (decodeWire c bytes now).2 now)
    else .error .notTime

/-! ## The encoder -/

/-- The lanes of a byte sequence. -/
def sequenceLanes (bs : List Byte) : List Int :=
  (bs.length : Int) :: bs.map fun b => (b.toNat : Int)

/-- The lanes of one axis sample. -/
def sampleLanes : Option Half → List Int
  | none => [0, 0]
  | some s => [1, s.toInt]

/-- The bytes of a frame (R60): address, LEN, type, payload, checksum. -/
def frameBytes (a len t : Byte) (payload : List Byte) (checksum : Byte) : List Byte :=
  a :: len :: t :: (payload ++ [checksum])

/-- The presentation of an instruction (R75 for format P, R60 for format W). -/
def encode (c : Config) : Instr → Presented
  | .rxByte b now => .port 0x1 [b.toNat, now]
  | .rxTick bs now => .port 0x2 (sequenceLanes bs ++ [(now : Int)])
  | .ctrlTick now mixEn axes => .port 0x3 ((now : Int) :: (if mixEn then 1 else 0) :: axes.flatMap sampleLanes)
  | .setChannel i v => .port 0x4 [i, v.toInt]
  | .getChannel i => .port 0x5 [i]
  | .sendChannels => .port 0x6 []
  | .encode t payload => .port 0x7 (t.toNat :: sequenceLanes payload)
  | .sendBattery mv ma mah pct => .port 0x8 [mv, ma, mah, pct.toNat]
  | .isLinkUp => .port 0x9 []
  | .getLinkStats => .port 0xA []
  | .reset => .port 0xF []
  | .reserved0 => .port 0x0 []
  | .reservedB => .port 0xB []
  | .reservedC => .port 0xC []
  | .reservedD => .port 0xD []
  | .reservedE => .port 0xE []
  | .frameRcChannelsPacked a payload ck now =>
    .wire (frameBytes a (lenByte c.rcPayload) c.typeRc payload ck) now
  | .frameLinkStatistics a payload ck now =>
    .wire (frameBytes a (lenByte c.lsPayload) c.typeLs payload ck) now
  | .frameBatterySensor a payload ck now =>
    .wire (frameBytes a (lenByte c.btPayload) c.typeBt payload ck) now
  | .frameOther a len body now => .wire (a :: len :: body) now

/-! ## Words of the opcode table -/

/-- How many operand lanes a selector takes when every operand is zero (a byte sequence of no bytes is one lane). -/
def zeroLanes (c : Config) (op : Sel) : Nat :=
  match op.toNat with
  | 0x1 => 2
  | 0x2 => 2
  | 0x3 => 2 + 2 * c.nAxis
  | 0x4 => 2
  | 0x5 => 1
  | 0x7 => 2
  | 0x8 => 4
  | _ => 0

/-- The presentation of a word of spec/opcode_table.json, everything beyond the word zero. A word of at most 8 bits
is format P: bits 3..0 are the selector. A wider word is format W's three header bytes, the address in bits 23..16,
LEN in bits 15..8, the type in bits 7..0 (notes/assumptions/6.md), followed by the zero payload and checksum bytes
that a legal LEN announces. -/
def tableWord (c : Config) (nbits w : Nat) : Presented :=
  if nbits ≤ 8 then
    .port (BitVec.ofNat 4 w) (List.replicate (zeroLanes c (BitVec.ofNat 4 w)) 0)
  else
    .wire (byteOf w 2 :: byteOf w 1 :: byteOf w 0 ::
      List.replicate (if lenLegal c (byteOf w 1) then (byteOf w 1).toNat - 1 else 0) 0) 0

/-- The instruction the decoder reads from a word of spec/opcode_table.json under the default configuration. -/
def decodeTableWord (nbits w : Nat) : Option Instr :=
  match decode Config.default (tableWord Config.default nbits w) with
  | .ok (i, _) => some i
  | .error _ => none

end Sys2Proof
end

