-- ==== Sys2Proof/Machine/State.lean ====
section
/-!
DEFINITION. The state of the block as plain data (10_state.md R10 to R22), its boundary (00_scope.md R9), the reasons
a step can stop, and the machine right after reset (70_reset_and_hazards.md R211).
-/

namespace Sys2Proof.Machine

/-- `rx_state` (R12): which byte of a frame the parser awaits. -/
inductive RxState where
  /-- `S_ADDR`, AwaitingAddress -/
  | addr
  /-- `S_LEN`, AwaitingLength -/
  | len
  /-- `S_TYPE`, AwaitingType -/
  | type
  /-- `S_PAYLOAD`, AccumulatingPayload -/
  | payload
  /-- `S_CRC`, AwaitingChecksum -/
  | crc
deriving DecidableEq, Repr

/-- The code of a parser state (R12). -/
def RxState.code : RxState → Nat
  | .addr => 0
  | .len => 1
  | .type => 2
  | .payload => 3
  | .crc => 4

/-- The receive buffer as (index, byte) pairs in one canonical form: indices strictly rising, no byte equal to what
an unlisted index reads as (`Memory.wf` and `Memory.read`, Machine/Ops.lean). -/
abbrev Memory := List Host.Cell

/-- A decoded frame (R20): it exists only inside the RX_BYTE that completes it. -/
structure Frame where
  addr : Byte
  len : Byte
  type : Byte
  payload : List Byte
  checksum : Byte
deriving DecidableEq, Repr

/-! ## What an operation returns -/

/-- The notifications (R18, R186). -/
inductive Event where
  | linkUp
  | linkDown
  | channels
deriving DecidableEq, Repr

/-- The four error classes (60_exceptions.md R180). -/
inductive ErrorClass where
  | framingError
  | unsupportedFrameType
  | transportUnavailable
  | invalidPayloadSize
deriving DecidableEq, Repr

/-- The code of an error class (R180, "for traces and tests only"). -/
def ErrorClass.code : ErrorClass → Nat
  | .framingError => 1
  | .unsupportedFrameType => 2
  | .transportUnavailable => 3
  | .invalidPayloadSize => 4

/-- What the block raises: the conditions of R180's table. TransportUnavailable is raised by the environment (R183)
and by nothing here. -/
inductive Raised where
  /-- FramingError, sub-cause 1: LEN < 2 (R95). -/
  | lenTooShort
  /-- FramingError, sub-cause 2: LEN - 2 > MAX_PAYLOAD (R95). -/
  | lenTooLong
  /-- FramingError, sub-cause 3: checksum mismatch (R98). -/
  | checksumMismatch
  /-- UnsupportedFrameType: type not in TYPE_TABLE (41_link_state_fsm.md R134). -/
  | unknownType
  /-- UnsupportedFrameType: known type, wrong payload size (R135). -/
  | wrongSize
  /-- InvalidPayloadSize: ENCODE's (type, payload) pair is not in TYPE_TABLE (R102). -/
  | encodeSize
deriving DecidableEq, Repr

/-- The class of a raised error (R180). -/
def Raised.errorClass : Raised → ErrorClass
  | .lenTooShort => .framingError
  | .lenTooLong => .framingError
  | .checksumMismatch => .framingError
  | .unknownType => .unsupportedFrameType
  | .wrongSize => .unsupportedFrameType
  | .encodeSize => .invalidPayloadSize

/-- The command of one drive actuator (42_channel_mixer.md R159): `dir` = 1 (true) is the negative sense. -/
structure Drive where
  dir : Bool
  duty : Nat
deriving DecidableEq, Repr

/-- The Mix Output (R19, R150): two drives, or one pulse width per servo. -/
inductive MixOutput where
  | diff (left right : Drive)
  | servo (pulses : List Int)
deriving DecidableEq, Repr

/-- The value an operation returns (R75's column "results", beside `events`, `tx` and `out`). -/
inductive Result where
  /-- The operation returns no value. -/
  | none
  /-- GET_CHANNEL's signed `CH_W` bits (R112). -/
  | channel (v : Int)
  /-- IS_LINK_UP's bit (R140). -/
  | bit (b : Bool)
  /-- GET_LINK_STATS's record (R141). -/
  | stats (r : LinkStats)
  /-- ENCODE's bytes (R101). -/
  | bytes (bs : List Byte)
  /-- ENCODE's `InvalidPayloadSize` (R102). -/
  | invalidPayloadSize
deriving DecidableEq, Repr

/-- The outputs of one operation (R9, R75; notes/assumptions/1.md). -/
structure Output where
  /-- The notifications, in order (R18). -/
  events : List Event := []
  /-- The errors raised, in order: the model's trace, the block keeps none (R180; notes/assumptions/20.md). -/
  errors : List Raised := []
  /-- The value returned. -/
  result : Result := .none
  /-- The bytes handed to `tx` (R42). -/
  tx : List Byte := []
  /-- The Mix Output published (R162); none for every operation but CTRL_TICK. -/
  mix : Option MixOutput := Option.none
deriving DecidableEq, Repr

/-! ## The state -/

/-- The block's state (R10), its configuration (R6, R20), and its boundary (R9, R40, R75). -/
structure State where
  /-- The parameters of R6; no operation changes them (20_memory.md R54). -/
  cfg : Config
  /-- The Channel Store `ch[1..N_CH]`, entry 1 first, each a signed `CH_W`-bit value (R11). -/
  ch : List Int
  /-- `rx_state` (R12). -/
  rxState : RxState
  /-- `rx_addr` (R13). -/
  rxAddr : Byte
  /-- `rx_len` (R13). -/
  rxLen : Byte
  /-- `rx_type` (R13). -/
  rxType : Byte
  /-- `rx_idx` (R13). -/
  rxIdx : Nat
  /-- `rx_crc` (R13). -/
  rxCrc : Byte
  /-- `rx_buf` (R14). -/
  rxBuf : Memory
  /-- `link_up` (R15). -/
  linkUp : Bool
  /-- `last_valid_ts` (R16). -/
  lastValidTs : Time
  /-- `ls` (R17). -/
  ls : LinkStats
  /-- Operations and inbound bytes presented and not taken yet, oldest first (notes/assumptions/2.md). -/
  pending : List Presented
  /-- The outbound byte stream so far, in emission order (R40, R42; notes/assumptions/22.md). -/
  outbound : List Byte
  /-- The outputs of the latest operation (notes/assumptions/1.md). -/
  out : Output
deriving DecidableEq, Repr

/-! ## The reasons a step can stop -/

/-- Faults: accesses to what the spec says does not exist. Both are safe (the machine stops where no run of a
well-formed configuration from reset can come; notes/assumptions/16.md). -/
inductive Fault where
  /-- Raised by the receive parser: an index outside `rx_buf[0 .. MAX_PAYLOAD-1]` (20_memory.md R47). Safe. -/
  | bufferRange (index : Nat)
  /-- Raised by CTRL_TICK: a channel index of the configuration outside `1 .. N_CH` (R47, R6). Safe. -/
  | channelRange (index : Nat)
deriving DecidableEq, Repr

/-- Refusals: no state changes and nothing is returned. -/
inductive Refusal where
  /-- Raised by exec for an instruction without a meaning. Safe. -/
  | notModelled (mnemonic : String)
  /-- Raised by RESERVED_0 and RESERVED_B to RESERVED_E: the selector names no operation and "is refused"
  (30_encoding.md R76). Safe: the spec's own answer (notes/assumptions/19.md). -/
  | reservedSelector (op : Sel)
  /-- Raised by GET_CHANNEL with an index outside `1 .. N_CH`: "a model refuses the operation" (R112, R47). Safe: the
  spec's own answer (notes/assumptions/18.md). -/
  | channelIndex (index : Nat)
  /-- Raised by step: the lanes presented are not the operands of the selector's row, or `now` is no time. Safe: the spec gives no such
  presentation a meaning (notes/assumptions/3.md). -/
  | badOperands (e : DecodeError)
deriving DecidableEq, Repr

/-! ## Reset -/

/-- R211, "Reset values, complete", for a configuration. Where R211 says "unspecified; model value 0" the value is 0
(notes/assumptions/9.md). -/
def State.powerOn (c : Config) : State where
  cfg := c
  ch := List.replicate c.nCh (c.toCh c.chCenter)
  rxState := .addr
  rxAddr := 0
  rxLen := 0
  rxType := 0
  rxIdx := 0
  rxCrc := 0
  rxBuf := []
  linkUp := false
  lastValidTs := 0
  ls := {}
  pending := []
  outbound := []
  out := {}

/-- The machine right after reset, under the default configuration (R211, R6). -/
def State.reset : State := State.powerOn Config.default

end Sys2Proof.Machine
end

