-- ==== Sys2Proof/Machine/Ops.lean ====
section
/-!
DEFINITION. The named operations over the state: the receive buffer, the Channel Store, the outputs of an operation,
and raising an error (the block's exception entry, one shared operation).
-/

namespace Sys2Proof.Machine

/-! ## The receive buffer (R9's `MemRead` and `MemWrite`, R14, R116) -/

/-- What an index that nothing has written reads as: R211's model value 0 (notes/assumptions/10.md). -/
def Memory.unlisted : Byte := 0

/-- One byte of the buffer. -/
def Memory.read : Memory → Nat → Byte
  | [], _ => Memory.unlisted
  | (k, v) :: m, a => if a = k then v else Memory.read m a

/-- Store one byte, keeping the canonical form. -/
def Memory.write : Memory → Nat → Byte → Memory
  | [], a, b => if b = Memory.unlisted then [] else [(a, b)]
  | (k, v) :: m, a, b =>
    if a < k then (if b = Memory.unlisted then (k, v) :: m else (a, b) :: (k, v) :: m)
    else if a = k then (if b = Memory.unlisted then m else (a, b) :: m)
    else (k, v) :: Memory.write m a b

/-- Every index listed is at least `lo`, indices rise strictly, no listed byte is the unlisted one. -/
def Memory.wfFrom (lo : Nat) : Memory → Bool
  | [] => true
  | (k, v) :: m => decide (lo ≤ k) && decide (v ≠ Memory.unlisted) && Memory.wfFrom (k + 1) m

/-- The canonical form. -/
def Memory.wf (m : Memory) : Bool := Memory.wfFrom 0 m

/-- `MemWrite(a, 1, b)` (R97); an index at or above `MAX_PAYLOAD` does not exist (R47). -/
def State.bufStore (a : Nat) (b : Byte) (s : State) : Except Fault State :=
  if a < s.cfg.maxPayload then .ok { s with rxBuf := s.rxBuf.write a b }
  else .error (.bufferRange a)

/-- `[MemRead(0,1), ..., MemRead(n-1,1)]` (R98). -/
def State.bufLoad (n : Nat) (s : State) : Except Fault (List Byte) :=
  if n ≤ s.cfg.maxPayload then .ok ((List.range n).map s.rxBuf.read)
  else .error (.bufferRange s.cfg.maxPayload)

/-! ## The Channel Store (R11, R116 "channel direct") -/

/-- `ch[i]`, 1-based; nothing outside `1 .. N_CH` (R47). -/
def State.chRead (i : Nat) (s : State) : Option Int :=
  if s.cfg.chanIndex i then s.ch[i - 1]? else none

/-- `ch[i] <- v` for an index inside `1 .. N_CH`; nothing is written outside it (R47). -/
def State.chWrite (i : Nat) (v : Int) (s : State) : State :=
  if s.cfg.chanIndex i then { s with ch := s.ch.set (i - 1) (s.cfg.toCh v) } else s

/-! ## Outputs (R9) -/

/-- An operation begins: the outputs of the one before it are gone (R18, R19, R20). -/
def State.begin (s : State) : State := { s with out := {} }

/-- `emit <ev>` (R9). -/
def State.emit (e : Event) (s : State) : State :=
  { s with out := { s.out with events := s.out.events ++ [e] } }

/-- The value an operation returns (R75). -/
def State.answer (r : Result) (s : State) : State :=
  { s with out := { s.out with result := r } }

/-- `tx(bytes)` (R9, R42): a whole frame, first byte first, to the outbound stream. -/
def State.transmit (bs : List Byte) (s : State) : State :=
  { s with outbound := s.outbound ++ bs, out := { s.out with tx := s.out.tx ++ bs } }

/-- `publish out` (R162). -/
def State.publish (o : MixOutput) (s : State) : State :=
  { s with out := { s.out with mix := some o } }

/-! ## Errors: entry (R180 to R184, R189); there is no return (R190) -/

/-- What entering an error of a class writes: a FramingError puts the parser in `S_ADDR` (R181), an
UnsupportedFrameType writes nothing more (R182), a TransportUnavailable is not in the block (R183), an
InvalidPayloadSize is the operation's result (R184). Nothing is saved and control goes nowhere (R189). -/
def State.enterError (k : ErrorClass) (s : State) : State :=
  match k with
  | .framingError => { s with rxState := .addr }
  | .unsupportedFrameType => s
  | .transportUnavailable => s
  | .invalidPayloadSize => s.answer .invalidPayloadSize

/-- `raise <Error>(info)` (R9): the one entry of every error. -/
def State.raiseError (e : Raised) (s : State) : State :=
  State.enterError e.errorClass { s with out := { s.out with errors := s.out.errors ++ [e] } }

/-! ## Ending an operation -/

/-- The outcome of a meaning that can meet a fault. -/
def conclude (r : Except Fault State) : Host.Outcome State Fault Refusal :=
  match r with
  | .ok s => .next s
  | .error f => .fault f

end Sys2Proof.Machine
end

