-- ==== Sys2Proof/Machine/Flags.lean ====
section
/-!
DEFINITION. The block's one stored flag, `link_up` (10_state.md R15, R18): what raises it and what lowers it.
-/

namespace Sys2Proof.Machine

/-- R131's test and set: `link_up` rises, with `ev_link_up`, only from `Down`. -/
def State.raiseLink (s : State) : State :=
  if s.linkUp then s else State.emit .linkUp { s with linkUp := true }

/-- The failsafe condition (R136): the time since the last valid frame exceeds `T_FS1`, strictly. -/
def timedOut (c : Config) (now ts : Time) : Bool :=
  decide (c.tFs1 < elapsed c now ts)

/-- LINK_TIMEOUT(now) (41_link_state_fsm.md R136). -/
def State.linkTimeout (now : Time) (s : State) : State :=
  if s.linkUp && timedOut s.cfg now s.lastValidTs then State.emit .linkDown { s with linkUp := false } else s

end Sys2Proof.Machine
end

