-- ==== Sys2Proof/Machine/LinkState.lean ====
section
/-!
DEFINITION. The link state machine (41_link_state_fsm.md): frame dispatch and the two read operations.
-/

namespace Sys2Proof.Machine

/-- A valid RC-channels-packed frame (R131). -/
def State.frameRc (payload : List Byte) (s : State) : State :=
  State.emit .channels (State.raiseLink { s with ch := unpackRc s.cfg payload })

/-- A valid link-statistics frame (R132). -/
def State.frameLs (payload : List Byte) (s : State) : State :=
  { s with ls := unpackLs s.cfg payload }

/-- FRAME_IN(F, now) (R130), with R133 (battery: nothing further), R134 and R135. -/
def State.frameIn (f : Frame) (now : Time) (s : State) : State :=
  let s := { s with lastValidTs := now }
  let plen := f.len.toNat - 2
  if f.type = s.cfg.typeRc ∧ plen = s.cfg.rcPayload then s.frameRc f.payload
  else if f.type = s.cfg.typeLs ∧ plen = s.cfg.lsPayload then s.frameLs f.payload
  else if f.type = s.cfg.typeBt ∧ plen = s.cfg.btPayload then s
  else if f.type = s.cfg.typeRc ∨ f.type = s.cfg.typeLs ∨ f.type = s.cfg.typeBt then
    s.raiseError .wrongSize
  else s.raiseError .unknownType

/-- IS_LINK_UP (R140). -/
def execIsLinkUp (s : State) : Host.Outcome State Fault Refusal :=
  .next (s.begin.answer (.bit s.linkUp))

/-- GET_LINK_STATS (R141). -/
def execGetLinkStats (s : State) : Host.Outcome State Fault Refusal :=
  .next (s.begin.answer (.stats s.ls))

end Sys2Proof.Machine
end

