-- ==== Sys2Proof/Machine/FrameCodec.lean ====
section
/-!
DEFINITION. The frame codec (40_frame_codec.md): the receive parser, the serializer, Channel Store access.
-/

namespace Sys2Proof.Machine

/-! ## The receive parser (R93 to R100) -/

/-- RX_BYTE in `S_ADDR` (R94). -/
def State.rxAddrByte (b : Byte) (s : State) : State :=
  { s with rxAddr := b, rxState := .len }

/-- RX_BYTE in `S_LEN` (R95). -/
def State.rxLenByte (b : Byte) (s : State) : State :=
  if b.toNat < 2 then s.raiseError .lenTooShort
  else if b.toNat - 2 > s.cfg.maxPayload then s.raiseError .lenTooLong
  else { s with rxLen := b, rxState := .type }

/-- RX_BYTE in `S_TYPE` (R96). -/
def State.rxTypeByte (b : Byte) (s : State) : State :=
  { s with
    rxType := b
    rxCrc := crc8Byte s.cfg s.cfg.crcInit b
    rxIdx := 0
    rxState := if s.rxLen = 2 then .crc else .payload }

/-- RX_BYTE in `S_PAYLOAD` (R97). -/
def State.rxPayloadByte (b : Byte) (s : State) : Except Fault State :=
  match s.bufStore s.rxIdx b with
  | .error f => .error f
  | .ok s =>
    .ok { s with
      rxCrc := crc8Byte s.cfg s.rxCrc b
      rxIdx := s.rxIdx + 1
      rxState := if s.rxIdx + 1 = s.rxLen.toNat - 2 then .crc else .payload }

/-- RX_BYTE in `S_CRC` (R98). -/
def State.rxCrcByte (b : Byte) (now : Time) (s : State) : Except Fault State :=
  let s := { s with rxState := .addr }
  if b = crcFinal s.cfg s.rxCrc then
    match s.bufLoad (s.rxLen.toNat - 2) with
    | .error f => .error f
    | .ok payload =>
      .ok (s.frameIn { addr := s.rxAddr, len := s.rxLen, type := s.rxType, payload, checksum := b } now)
  else .ok (s.raiseError .checksumMismatch)

/-- One received byte: "dispatch on `rx_state` to exactly one" rule (R93). -/
def State.rxOne (b : Byte) (now : Time) (s : State) : Except Fault State :=
  match s.rxState with
  | .addr => .ok (s.rxAddrByte b)
  | .len => .ok (s.rxLenByte b)
  | .type => .ok (s.rxTypeByte b)
  | .payload => s.rxPayloadByte b
  | .crc => s.rxCrcByte b now

/-- Received bytes in arrival order, all with one `now` (R100's loop). -/
def State.rxMany (now : Time) : List Byte → State → Except Fault State
  | [], s => .ok s
  | b :: bs, s =>
    match s.rxOne b now with
    | .error f => .error f
    | .ok s => s.rxMany now bs

/-- RX_BYTE (R93). -/
def execRxByte (b : Byte) (now : Time) (s : State) : Host.Outcome State Fault Refusal :=
  conclude (s.begin.rxOne b now)

/-- RX_TICK (R100). -/
def execRxTick (bs : List Byte) (now : Time) (s : State) : Host.Outcome State Fault Refusal :=
  conclude (s.begin.rxMany now bs)

/-! ## The serializer (R101 to R103) -/

/-- ENCODE's bytes, or none where the pair is not in `TYPE_TABLE` (R101, R102). A function of the configuration and
the operands alone (R103). -/
def encodeFrame (c : Config) (t : Byte) (payload : List Byte) : Option (List Byte) :=
  if (t, payload.length) ∈ c.typeTable then
    some (frameBytes c.txAddr (lenByte payload.length) t payload (crc8 c (t :: payload)))
  else none

/-- ENCODE (R101, R102, R184). -/
def execEncode (t : Byte) (payload : List Byte) (s : State) : Host.Outcome State Fault Refusal :=
  match encodeFrame s.cfg t payload with
  | some bs => .next (s.begin.answer (.bytes bs))
  | none => .next (s.begin.raiseError .encodeSize)

/-- `ENCODE` then `tx` of the result (R110, R113); a refused pair is never transmitted (R102). -/
def State.sendFrame (t : Byte) (payload : List Byte) (s : State) : State :=
  match encodeFrame s.cfg t payload with
  | some bs => s.transmit bs
  | none => s.raiseError .encodeSize

/-- SEND_BATTERY (R110). -/
def execSendBattery (mv ma mah : Nat) (pct : Byte) (s : State) : Host.Outcome State Fault Refusal :=
  .next (s.begin.sendFrame s.cfg.typeBt (packBt s.cfg mv ma mah pct))

/-! ## Channel Store access (R111 to R113) -/

/-- SET_CHANNEL (R111): saturated; an index outside `1 .. N_CH` writes nothing. -/
def execSetChannel (i : Nat) (v : Half) (s : State) : Host.Outcome State Fault Refusal :=
  .next (s.begin.chWrite i (sat v.toInt s.cfg.chMin s.cfg.chMax))

/-- GET_CHANNEL (R112): an index outside `1 .. N_CH` is refused. -/
def execGetChannel (i : Nat) (s : State) : Host.Outcome State Fault Refusal :=
  match s.chRead i with
  | some v => .next (s.begin.answer (.channel v))
  | none => .refused (.channelIndex i)

/-- SEND_CHANNELS (R113). -/
def execSendChannels (s : State) : Host.Outcome State Fault Refusal :=
  .next (s.begin.sendFrame s.cfg.typeRc (packRc s.cfg s.ch))

end Sys2Proof.Machine
end

