-- ==== Sys2Proof/Machine/Frames.lean ====
section
/-!
DEFINITION. The wire frame types as operations: the bytes of the frame are received, in order, at one `now`
(30_encoding.md R78's `RXF`; notes/assumptions/4.md). What they do is the parser's and the dispatch's business: in
`S_ADDR` with a matching checksum the frame is emitted whole and rules R131 to R135 apply; with a wrong checksum it is
dropped (R98); in another parser state the same bytes continue the frame under way (R99).
-/

namespace Sys2Proof.Machine

/-- FRAME_RC_CHANNELS_PACKED received (R131). -/
def execFrameRcChannelsPacked (a : Byte) (payload : List Byte) (ck : Byte) (now : Time) (s : State) :
    Host.Outcome State Fault Refusal :=
  conclude (s.begin.rxMany now (frameBytes a (lenByte s.cfg.rcPayload) s.cfg.typeRc payload ck))

/-- FRAME_LINK_STATISTICS received (R132). -/
def execFrameLinkStatistics (a : Byte) (payload : List Byte) (ck : Byte) (now : Time) (s : State) :
    Host.Outcome State Fault Refusal :=
  conclude (s.begin.rxMany now (frameBytes a (lenByte s.cfg.lsPayload) s.cfg.typeLs payload ck))

/-- FRAME_BATTERY_SENSOR received (R133). -/
def execFrameBatterySensor (a : Byte) (payload : List Byte) (ck : Byte) (now : Time) (s : State) :
    Host.Outcome State Fault Refusal :=
  conclude (s.begin.rxMany now (frameBytes a (lenByte s.cfg.btPayload) s.cfg.typeBt payload ck))

/-- FRAME_OTHER received (R95, R98, R134, R135). -/
def execFrameOther (a len : Byte) (body : List Byte) (now : Time) (s : State) :
    Host.Outcome State Fault Refusal :=
  conclude (s.begin.rxMany now (a :: len :: body))

end Sys2Proof.Machine
end

