-- ==== Sys2Proof/Machine/Mixer.lean ====
section
/-!
DEFINITION. The channel mixer (42_channel_mixer.md): CTRL_TICK and its steps.
-/

namespace Sys2Proof.Machine

/-! ## Axis to channel (R152 to R155) -/

/-- The mapped value before clamping (R153): the product first, then one truncating division. -/
def axisRaw (c : Config) (s : Int) : Int :=
  if s ≥ 0 then c.chCenter + divT (s * c.chHalf) c.axisMax
  else c.chCenter + divT (s * c.chHalf) (-c.axisMin)

/-- `axis_to_ch(s)` (R153, R154). -/
def axisToCh (c : Config) (s : Int) : Int := sat (axisRaw c s) c.chMin c.chMax

/-- One axis (R152, R155): an unavailable sample leaves its channel alone. -/
def State.writeAxis (k : Nat) (sample : Option Half) (s : State) : Except Fault State :=
  match sample with
  | none => .ok s
  | some v =>
    if s.cfg.chanIndex k then .ok (s.chWrite k (axisToCh s.cfg v.toInt)) else .error (.channelRange k)

/-- R150's loop over the axes, in order of k. The list pairs `AXIS_CH[k]` with `axes[k]`. -/
def State.writeAxes : List (Nat × Option Half) → State → Except Fault State
  | [], s => .ok s
  | (k, sample) :: rest, s =>
    match s.writeAxis k sample with
    | .error f => .error f
    | .ok s => s.writeAxes rest

/-! ## Differential-drive mix (R156 to R159) -/

/-- `sym(v)` (R156). -/
def sym (c : Config) (v : Int) : Int := sat (v - c.chCenter) (-c.chHalf) c.chHalf

/-- `left_raw` (R157). -/
def leftRaw (a b : Int) : Int := divT (a - b) 2

/-- `right_raw` (R157). -/
def rightRaw (a b : Int) : Int := -divT (a + b) 2

/-- Sign and magnitude of a mixed value (R159). -/
def driveOf (c : Config) (m : Int) : Drive where
  dir := decide (m < 0)
  duty := (sat (divT (absI m * c.dutyMax) c.chHalf) 0 c.dutyMax).toNat

/-- The drives of the two mix inputs: mix, deadband, sign and magnitude (R156 to R159). -/
def diffOut (c : Config) (vA vB : Int) : MixOutput :=
  .diff (driveOf c (db c (leftRaw (sym c vA) (sym c vB)))) (driveOf c (db c (rightRaw (sym c vA) (sym c vB))))

/-! ## Servo pass-through (R160) -/

/-- One pulse width (R160). -/
def servoPulse (c : Config) (v : Int) : Int := sat v c.chMin c.chMax

/-- The pulse widths of the channels listed. -/
def State.servoPulses (s : State) : List Nat → Except Fault (List Int)
  | [] => .ok []
  | k :: ks =>
    match s.chRead k, State.servoPulses s ks with
    | some v, .ok ps => .ok (servoPulse s.cfg v :: ps)
    | none, _ => .error (.channelRange k)
    | _, .error f => .error f

/-! ## The tick (R150, R161, R162) -/

/-- The output computed from the Channel Store (R150's two MIX_KIND lines). -/
def State.mixOut (s : State) : Except Fault MixOutput :=
  match s.cfg.mixKind with
  | .diff =>
    match s.chRead s.cfg.mixA, s.chRead s.cfg.mixB with
    | some a, some b => .ok (diffOut s.cfg a b)
    | none, _ => .error (.channelRange s.cfg.mixA)
    | _, none => .error (.channelRange s.cfg.mixB)
  | .servo =>
    match s.servoPulses s.cfg.servoCh with
    | .ok ps => .ok (.servo ps)
    | .error f => .error f

/-- The configured safe value (R161). -/
def safeOut (c : Config) : MixOutput :=
  match c.mixKind with
  | .diff => .diff { dir := false, duty := 0 } { dir := false, duty := 0 }
  | .servo => .servo (List.replicate c.nServo c.safePulse)

/-- The failsafe override (R161). -/
def State.override (o : MixOutput) (s : State) : MixOutput :=
  if s.linkUp then o else safeOut s.cfg

/-- The axis step of a tick: skipped entirely when `mix_en` = 0 (R163). -/
def State.axisStep (mixEn : Bool) (axes : List (Option Half)) (s : State) : Except Fault State :=
  if mixEn then s.writeAxes (s.cfg.axisCh.zip axes) else .ok s

/-- Mix, override and publish (R150's last lines). -/
def State.mixStep (s : State) : Except Fault State :=
  match s.mixOut with
  | .error f => .error f
  | .ok o => .ok (s.publish (s.override o))

/-- CTRL_TICK (R150): timeout, axis-to-store writes, mix, override, publish, in this fixed order. -/
def execCtrlTick (now : Time) (mixEn : Bool) (axes : List (Option Half)) (s : State) :
    Host.Outcome State Fault Refusal :=
  match (s.begin.linkTimeout now).axisStep mixEn axes with
  | .error f => .fault f
  | .ok s => conclude s.mixStep

end Sys2Proof.Machine
end

