-- ==== Sys2Proof/Machine/System.lean ====
section
/-!
DEFINITION. RESET (70_reset_and_hazards.md R210) and the reserved selectors (30_encoding.md R76).
-/

namespace Sys2Proof.Machine

/-- Every piece of the block's state takes R211's value. The parameters "cannot change" (R212); what the environment
has presented and what it has been sent are not the block's state (notes/assumptions/21.md). -/
def State.resetBlock (s : State) : State :=
  { State.powerOn s.cfg with pending := s.pending, outbound := s.outbound }

/-- RESET (R210): no result, no notification. -/
def execReset (s : State) : Host.Outcome State Fault Refusal :=
  .next s.resetBlock

/-- Presenting a selector that names no operation (R76): refused, no state changes and nothing is returned. -/
def refuseSelector (op : Sel) (_ : State) : Host.Outcome State Fault Refusal :=
  .refused (.reservedSelector op)

/-- RESERVED_0 (R76). -/
def execReserved0 (s : State) : Host.Outcome State Fault Refusal := refuseSelector 0x0 s

/-- RESERVED_B (R76). -/
def execReservedB (s : State) : Host.Outcome State Fault Refusal := refuseSelector 0xB s

/-- RESERVED_C (R76). -/
def execReservedC (s : State) : Host.Outcome State Fault Refusal := refuseSelector 0xC s

/-- RESERVED_D (R76). -/
def execReservedD (s : State) : Host.Outcome State Fault Refusal := refuseSelector 0xD s

/-- RESERVED_E (R76). -/
def execReservedE (s : State) : Host.Outcome State Fault Refusal := refuseSelector 0xE s

end Sys2Proof.Machine
end

