-- ==== Sys2Proof/Machine/Dispatch.lean ====
section
/-! DEFINITION. One arm per row of spec/opcode_table.json. -/

namespace Sys2Proof.Machine

def exec (i : Instr) (s : State) : Host.Outcome State Fault Refusal :=
  match i with
  | .rxByte b now => Sys2Proof.Machine.execRxByte b now s
  | .rxTick bs now => Sys2Proof.Machine.execRxTick bs now s
  | .ctrlTick now mixEn axes => Sys2Proof.Machine.execCtrlTick now mixEn axes s
  | .setChannel i' v => Sys2Proof.Machine.execSetChannel i' v s
  | .getChannel i' => Sys2Proof.Machine.execGetChannel i' s
  | .sendChannels => Sys2Proof.Machine.execSendChannels s
  | .encode ty payload => Sys2Proof.Machine.execEncode ty payload s
  | .sendBattery mv ma mah pct => Sys2Proof.Machine.execSendBattery mv ma mah pct s
  | .isLinkUp => Sys2Proof.Machine.execIsLinkUp s
  | .getLinkStats => Sys2Proof.Machine.execGetLinkStats s
  | .reset => Sys2Proof.Machine.execReset s
  | .reserved0 => Sys2Proof.Machine.execReserved0 s
  | .reservedB => Sys2Proof.Machine.execReservedB s
  | .reservedC => Sys2Proof.Machine.execReservedC s
  | .reservedD => Sys2Proof.Machine.execReservedD s
  | .reservedE => Sys2Proof.Machine.execReservedE s
  | .frameRcChannelsPacked a payload ck now => Sys2Proof.Machine.execFrameRcChannelsPacked a payload ck now s
  | .frameLinkStatistics a payload ck now => Sys2Proof.Machine.execFrameLinkStatistics a payload ck now s
  | .frameBatterySensor a payload ck now => Sys2Proof.Machine.execFrameBatterySensor a payload ck now s
  | .frameOther a len body now => Sys2Proof.Machine.execFrameOther a len body now s

end Sys2Proof.Machine
end

