-- ==== Sys2Proof/Machine/Fetch.lean ====
section
/-!
DEFINITION. Taking the next operation from what the environment has presented (notes/assumptions/2.md).
-/

namespace Sys2Proof.Machine

/-- What step does next. -/
inductive Fetched where
  /-- Nothing is presented. -/
  | idle
  /-- The next instruction, and the state with its presentation taken. -/
  | run (i : Instr) (s : State)
  /-- The lanes presented are not the operands of the selector's row. -/
  | bad (e : DecodeError)
deriving DecidableEq, Repr

/-- The head of `pending` decoded and taken; what a wire presentation holds beyond one frame stays at the head. -/
def State.fetch (s : State) : Fetched :=
  match s.pending with
  | [] => .idle
  | p :: rest =>
    match decode s.cfg p with
    | .ok (i, more) => .run i { s with pending := more ++ rest }
    | .error e => .bad e

/-- `s` with an instruction of spec/opcode_table.json presented first (its bits beyond the word zero). -/
def State.present (s : State) (nbits w : Nat) : State :=
  { s with pending := tableWord s.cfg nbits w :: s.pending }

end Sys2Proof.Machine
end

