-- ==== Sys2Proof/Machine/Step.lean ====
section
/-!
DEFINITION. One step: the next presented operation, atomically (20_memory.md R48). "An idle block is one that receives
no operation, and it keeps all its state" (60_exceptions.md R195).
-/

namespace Sys2Proof.Machine

def step (s : State) : Host.Outcome State Fault Refusal :=
  match s.fetch with
  | .idle => .next s
  | .run i t => exec i t
  | .bad e => .refused (.badOperands e)

/-- The instruction of a word of spec/opcode_table.json, presented so that the very next step runs it. -/
def State.withFetchWord (s : State) (nbits w : Nat) : State := s.present nbits w

end Sys2Proof.Machine
end

