-- ==== Sys2Proof/Safety.lean ====
section
/-!
DEFINITION. What counts as a good state and a safe run, in the terms the statements use: the invariants of 10_state.md
R22 and R11, what an operation leaves alone, the agents of 60_exceptions.md R191 and R194, a caller's fault (R184), and
sequences of operations (20_memory.md R48, R51).
-/

namespace Sys2Proof.Machine

/-! ## Invariants -/

/-- `rx_buf[0 .. n]` of R22: the first `n` bytes of the buffer. -/
def State.received (s : State) (n : Nat) : List Byte := (List.range n).map s.rxBuf.read

/-- What holds in every reachable state: R22 items 1 to 3, the shape of the Channel Store (R11) and of the receive
buffer (R14), and the constraints of R6 on the configuration. -/
structure State.Inv (s : State) : Prop where
  /-- The configuration meets R6. -/
  cfgWf : s.cfg.wf = true
  /-- The Channel Store holds `N_CH` entries (R11). -/
  chLength : s.ch.length = s.cfg.nCh
  /-- Every Channel Value fits `CH_W` bits (R11). -/
  chFits : ∀ v ∈ s.ch, s.cfg.fitsCh v = true
  /-- The timestamp fits `TIME_W` bits (R16). -/
  timeFits : s.cfg.fitsTime s.lastValidTs = true
  /-- The receive buffer has its canonical form. -/
  bufWf : s.rxBuf.wf = true
  /-- Nothing is stored at or above `MAX_PAYLOAD` (R14). -/
  bufBound : ∀ a, s.cfg.maxPayload ≤ a → s.rxBuf.read a = Memory.unlisted
  /-- R22 item 1. -/
  lenBound : s.rxState = .type ∨ s.rxState = .payload ∨ s.rxState = .crc →
    2 ≤ s.rxLen.toNat ∧ s.rxLen.toNat ≤ s.cfg.maxPayload + 2
  /-- R22 item 2, `S_PAYLOAD`. -/
  idxPayload : s.rxState = .payload → s.rxIdx < s.rxLen.toNat - 2
  /-- R22 item 2, `S_CRC`. -/
  idxCrc : s.rxState = .crc → s.rxIdx = s.rxLen.toNat - 2
  /-- R22 item 3: the register stands for the checksum of the type and the payload bytes so far. -/
  crcRegister : s.rxState = .payload ∨ s.rxState = .crc →
    crcFinal s.cfg s.rxCrc = crc8 s.cfg (s.rxType :: s.received s.rxIdx)

/-- The range of R11: `[min(CH_MIN, 0), max(CH_MAX, 2^CH_BITS - 1)]`. -/
def State.ChannelRange (s : State) : Prop :=
  ∀ v ∈ s.ch, min s.cfg.chMin 0 ≤ v ∧ v ≤ max s.cfg.chMax (2 ^ s.cfg.chBits - 1)

/-- The part of the invariants that the Channel Store's operations and the mixer need: `N_CH` entries (R11), and R6's
constraints on channel values and channel indices. -/
def State.StoreShaped (s : State) : Prop :=
  s.ch.length = s.cfg.nCh ∧ s.cfg.wfRange = true ∧ s.cfg.wfIndices = true

/-! ## What an operation leaves alone -/

/-- The parser's registers and buffer are unchanged. -/
def SameParser (s t : State) : Prop :=
  t.rxState = s.rxState ∧ t.rxAddr = s.rxAddr ∧ t.rxLen = s.rxLen ∧ t.rxType = s.rxType ∧
    t.rxIdx = s.rxIdx ∧ t.rxCrc = s.rxCrc ∧ ∀ a, t.rxBuf.read a = s.rxBuf.read a

/-- The environment's side is unchanged: configuration, what is presented, what has been sent. -/
def SameBoundary (s t : State) : Prop :=
  t.cfg = s.cfg ∧ t.pending = s.pending ∧ t.outbound = s.outbound

/-- Nothing outside the parser is changed, and nothing is sent. -/
def SameOutsideParser (s t : State) : Prop :=
  SameBoundary s t ∧ t.ch = s.ch ∧ t.linkUp = s.linkUp ∧ t.lastValidTs = s.lastValidTs ∧ t.ls = s.ls

/-- The block's whole state (R10) is unchanged, and the configuration and what is presented with it. -/
def SameBlock (s t : State) : Prop :=
  SameParser s t ∧ t.cfg = s.cfg ∧ t.pending = s.pending ∧ t.ch = s.ch ∧ t.linkUp = s.linkUp ∧
    t.lastValidTs = s.lastValidTs ∧ t.ls = s.ls

/-! ## A frame's effect outside the parser (41_link_state_fsm.md R138) -/

/-- A valid frame of the RC-channels-packed type and size. -/
def isRcFrame (c : Config) (t : Byte) (payload : List Byte) : Bool :=
  decide (t = c.typeRc) && decide (payload.length = c.rcPayload)

/-- A valid frame of the link-statistics type and size. -/
def isLsFrame (c : Config) (t : Byte) (payload : List Byte) : Bool :=
  decide (t = c.typeLs) && decide (payload.length = c.lsPayload)

/-- The rows of R138 for a valid frame received at `now`: an RC frame writes all channels and raises the link, a
link-statistics frame writes the record, every frame refreshes the timestamp, and nothing else changes. -/
structure Delivered (t : Byte) (payload : List Byte) (now : Time) (s u : State) : Prop where
  boundary : SameBoundary s u
  timestamp : u.lastValidTs = now
  channels : u.ch = if isRcFrame s.cfg t payload then unpackRc s.cfg payload else s.ch
  link : u.linkUp = (s.linkUp || isRcFrame s.cfg t payload)
  stats : u.ls = if isLsFrame s.cfg t payload then unpackLs s.cfg payload else s.ls
  events : u.out.events =
    if isRcFrame s.cfg t payload then (if s.linkUp then [.channels] else [.linkUp, .channels]) else []

/-! ## A tick's samples (42_channel_mixer.md R152) -/

/-- The sample that channel `j` takes from the (channel, sample) pairs of a tick: the last available one ("if two axes
map to the same channel the higher k wins"), or none. -/
def lastSample (j : Nat) (pairs : List (Nat × Option Half)) : Option Half :=
  (pairs.filterMap fun p => if p.1 = j then p.2 else none).getLast?

/-! ## Agents (60_exceptions.md R191, R194) -/

/-- The three agents that drive the block (R194). -/
inductive Agent where
  | receive
  | control
  | observer
deriving DecidableEq, Repr

/-- The operations an agent issues (R194's column "issues"; a wire frame is what the receive activity receives).
RESET and the reserved selectors stand in no agent's row. -/
def Agent.issues : Agent → Instr → Bool
  | .receive, .rxByte _ _ => true
  | .receive, .rxTick _ _ => true
  | .receive, .frameRcChannelsPacked _ _ _ _ => true
  | .receive, .frameLinkStatistics _ _ _ _ => true
  | .receive, .frameBatterySensor _ _ _ _ => true
  | .receive, .frameOther _ _ _ _ => true
  | .control, .ctrlTick _ _ _ => true
  | .control, .setChannel _ _ => true
  | .control, .sendChannels => true
  | .control, .sendBattery _ _ _ _ => true
  | .control, .encode _ _ => true
  | .observer, .isLinkUp => true
  | .observer, .getLinkStats => true
  | .observer, .getChannel _ => true
  | _, _ => false

/-! ## A caller's fault (R184, 93_implementation_defined.md U5) -/

/-- The latest operation met `InvalidPayloadSize`: "a model treats a run that reaches it as a caller fault". The
block's own step is defined and the block remains usable (notes/assumptions/17.md). -/
def State.callerFault (s : State) : Bool := s.out.errors.any fun e => decide (e = .encodeSize)

/-! ## Sequences of operations (20_memory.md R48, R51) -/

/-- The state after a sequence of operations and all notifications in order. A refused operation changes nothing
(R76, R112), so the sequence goes on; a fault ends it. -/
def runOps : List Instr → State → State × List Event
  | [], s => (s, [])
  | i :: is, s =>
    match exec i s with
    | .next t => ((runOps is t).1, t.out.events ++ (runOps is t).2)
    | .fault _ => (s, [])
    | .refused _ => runOps is s

/-- The link notifications alternate, the first being `ev_link_up` when `up` is false (R139). -/
def alternates : Bool → List Event → Bool
  | _, [] => true
  | up, .channels :: es => alternates up es
  | up, .linkUp :: es => !up && alternates true es
  | up, .linkDown :: es => up && alternates false es

/-- The `now` an operation of the receive activity carries. -/
def receiveTime : Instr → Option Time
  | .rxByte _ now => some now
  | .rxTick _ now => some now
  | .frameRcChannelsPacked _ _ _ now => some now
  | .frameLinkStatistics _ _ _ now => some now
  | .frameBatterySensor _ _ _ now => some now
  | .frameOther _ _ _ now => some now
  | _ => none

end Sys2Proof.Machine
end

