-- ==== Sys2Proof/Certificates/Slice0/Obligations.lean ====
section
/-!
DEFINITION. The statements for the provers. Each docstring names the rule of spec/ it formalises, or says that it is
derived and from what. `SameParser`, `SameBoundary`, `SameOutsideParser`, `SameBlock`, `Delivered`, `State.Inv`,
`State.StoreShaped`, `lastSample`, `runOps`, `alternates` stand in Sys2Proof/Safety.lean. What an operation returns, emits,
sends and raises is read in `State.out` (notes/assumptions/1.md); an error raised stands there in the model's own trace
(notes/assumptions/20.md).
-/

open Sys2Proof Sys2Proof.Machine

/-! ## The receive parser, one byte (40_frame_codec.md R93 to R98) -/

/-- R94: in `S_ADDR` every byte is taken as the address, and nothing else changes. -/
def Obligations.AddressByteAccepted : Prop :=
  ∀ (s : State) (b : Byte) (now : Time), s.rxState = .addr →
    exec (.rxByte b now) s = .next { s with rxAddr := b, rxState := .len, out := {} }

/-- R95: in `S_LEN` a LEN byte in `2 .. MAX_PAYLOAD + 2` is recorded; any other is a FramingError, consumed, and the
parser returns to `S_ADDR` with its registers stale. -/
def Obligations.LengthByteChecked : Prop :=
  ∀ (s : State) (b : Byte) (now : Time), s.rxState = .len →
    if b.toNat < 2 ∨ b.toNat - 2 > s.cfg.maxPayload then
      ∃ e : Raised, e.errorClass = .framingError ∧
        exec (.rxByte b now) s = .next { s with rxState := .addr, out := { errors := [e] } }
    else exec (.rxByte b now) s = .next { s with rxLen := b, rxState := .type, out := {} }

/-- Derived from R96 (its branch on an empty payload is the spec's own inference): in `S_TYPE` the byte is the type,
the checksum register starts over it, the index is 0, and an empty payload goes straight to `S_CRC`. -/
def Obligations.TypeByteStartsChecksum : Prop :=
  ∀ (s : State) (b : Byte) (now : Time), s.rxState = .type →
    exec (.rxByte b now) s = .next { s with
      rxType := b, rxCrc := crc8Byte s.cfg s.cfg.crcInit b, rxIdx := 0,
      rxState := if s.rxLen = 2 then .crc else .payload, out := {} }

/-- R97: in `S_PAYLOAD` the byte goes to `rx_buf[rx_idx]` and into the checksum register, the index advances, and the
parser goes to `S_CRC` exactly when the index reaches `rx_len - 2`; every other byte of the buffer and everything
outside the parser is unchanged. -/
def Obligations.PayloadByteStored : Prop :=
  ∀ (s : State) (b : Byte) (now : Time), s.rxState = .payload → s.rxBuf.wf = true →
    s.rxIdx < s.cfg.maxPayload →
    ∃ t : State, exec (.rxByte b now) s = .next t ∧ t.rxBuf.read s.rxIdx = b ∧
      (∀ a, a ≠ s.rxIdx → t.rxBuf.read a = s.rxBuf.read a) ∧
      t = { s with
        rxBuf := t.rxBuf, rxCrc := crc8Byte s.cfg s.rxCrc b, rxIdx := s.rxIdx + 1,
        rxState := if s.rxIdx + 1 = s.rxLen.toNat - 2 then .crc else .payload, out := {} }

/-- Derived from R98 and the table of R138: in `S_CRC` the parser returns to `S_ADDR`; a byte equal to the computed
checksum emits the frame and has its effect, any other byte is a FramingError and changes nothing more. -/
def Obligations.ChecksumByteDecides : Prop :=
  ∀ (s : State) (b : Byte) (now : Time), s.Inv → s.rxState = .crc →
    if b = crcFinal s.cfg s.rxCrc then
      ∃ t : State, exec (.rxByte b now) s = .next t ∧ t.rxState = .addr ∧
        SameParser { s with rxState := .addr } t ∧
        Delivered s.rxType (s.received (s.rxLen.toNat - 2)) now s t
    else
      ∃ e : Raised, e.errorClass = .framingError ∧
        exec (.rxByte b now) s = .next { s with rxState := .addr, out := { errors := [e] } }

/-- Derived from R17, R65 and R107: under R65's layout field `k` of the record is payload byte `k`, all ten fields. -/
def Obligations.LinkStatsFieldsInPayloadOrder : Prop :=
  ∀ (c : Config) (b0 b1 b2 b3 b4 b5 b6 b7 b8 b9 : Byte), c.lsLayout = {} →
    unpackLs c [b0, b1, b2, b3, b4, b5, b6, b7, b8, b9] =
      { upRssi1 := b0, upRssi2 := b1, upLq := b2, upSnr := b3, ant := b4, rfMode := b5, upTxpow := b6,
        dnRssi := b7, dnLq := b8, dnSnr := b9 }

/-! ## RX_TICK (R100) -/

/-- R100: RX_TICK is RX_BYTE for each byte in order with one `now`, the notifications (and the model's error trace)
concatenated; with no byte it changes nothing. -/
def Obligations.RxTickIsRxByteInOrder : Prop :=
  ∀ (s : State) (now : Time),
    exec (.rxTick [] now) s = .next { s with out := {} } ∧
    ∀ (b : Byte) (bs : List Byte) (t u : State),
      exec (.rxByte b now) s = .next t → exec (.rxTick bs now) t = .next u →
      exec (.rxTick (b :: bs) now) s = .next { u with out := {
        events := t.out.events ++ u.out.events, errors := t.out.errors ++ u.out.errors } }

/-- Derived from R22, R93 ("The operation is total") and R194: from every good state RX_BYTE and RX_TICK, at a time of
`TIME_W` bits, complete, in a good state, leave the boundary alone and never lower the link. -/
def Obligations.ReceivingCompletes : Prop :=
  ∀ (s : State) (now : Time), s.Inv → now < 2 ^ s.cfg.timeW →
    (∀ b : Byte, ∃ t : State, exec (.rxByte b now) s = .next t ∧ t.Inv ∧ SameBoundary s t ∧
      (s.linkUp = true → t.linkUp = true)) ∧
    (∀ bs : List Byte, ∃ t : State, exec (.rxTick bs now) s = .next t ∧ t.Inv ∧ SameBoundary s t ∧
      (s.linkUp = true → t.linkUp = true))

/-! ## Whole frames -/

/-- Derived from R94 to R98, R130 to R135 ("a frame is accepted if and only if its checksum over type+payload matches
the trailing checksum byte"): the bytes of a frame received from `S_ADDR` leave the parser in `S_ADDR`; with the
matching checksum the frame has its whole effect, with any other it has none. -/
def Obligations.FrameAcceptedIffChecksumMatches : Prop :=
  ∀ (s : State) (a t ck : Byte) (payload : List Byte) (now : Time),
    s.cfg.wf = true → s.rxBuf.wf = true → s.rxState = .addr → payload.length ≤ s.cfg.maxPayload →
    ∃ u : State,
      exec (.rxTick (frameBytes a (lenByte payload.length) t payload ck) now) s = .next u ∧ u.rxState = .addr ∧
      if ck = crc8 s.cfg (t :: payload) then Delivered t payload now s u
      else SameOutsideParser s u ∧ u.out.events = []

/-- Derived from R49 ("invalid frames are discarded, never partially applied") and R115: no proper prefix of a frame
has any effect outside the parser, and inside a frame the parser is never in `S_ADDR`. -/
def Obligations.NoEffectBeforeChecksum : Prop :=
  ∀ (s : State) (a t ck : Byte) (payload : List Byte) (now : Time) (k : Nat),
    s.cfg.wf = true → s.rxBuf.wf = true → s.rxState = .addr → payload.length ≤ s.cfg.maxPayload →
    k < payload.length + 4 →
    ∃ u : State,
      exec (.rxTick ((frameBytes a (lenByte payload.length) t payload ck).take k) now) s = .next u ∧
      SameOutsideParser s u ∧ u.out.events = [] ∧ (0 < k → u.rxState ≠ .addr)

/-- Derived from R103 (the round trip): what ENCODE returns, received from `S_ADDR` under the same configuration,
emits exactly the frame that was encoded, with address `TX_ADDR`, and leaves the parser in `S_ADDR`. -/
def Obligations.EncodedFrameIsReceivedBack : Prop :=
  ∀ (s r v : State) (t : Byte) (payload bs : List Byte) (now : Time),
    r.cfg = s.cfg → s.cfg.wf = true → r.rxBuf.wf = true → r.rxState = .addr →
    exec (.encode t payload) s = .next v → v.out.result = .bytes bs →
    ∃ u : State, exec (.rxTick bs now) r = .next u ∧ u.rxState = .addr ∧ u.rxAddr = s.cfg.txAddr ∧
      u.rxType = t ∧ Delivered t payload now r u

/-- Derived from R131 and R98, for the row FRAME_RC_CHANNELS_PACKED: received from `S_ADDR`, with the matching checksum it writes all
channels, raises the link and notifies; with another checksum it is dropped (R98). -/
def Obligations.RcFrameRowCompletes : Prop :=
  ∀ (s : State) (a ck : Byte) (payload : List Byte) (now : Time),
    s.cfg.wf = true → s.rxBuf.wf = true → s.rxState = .addr → payload.length = s.cfg.rcPayload →
    ∃ u : State, exec (.frameRcChannelsPacked a payload ck now) s = .next u ∧ u.rxState = .addr ∧
      SameBoundary s u ∧ u.ls = s.ls ∧
      if ck = crc8 s.cfg (s.cfg.typeRc :: payload) then
        u.lastValidTs = now ∧ u.ch = unpackRc s.cfg payload ∧ u.linkUp = true ∧
          u.out.events = if s.linkUp then [.channels] else [.linkUp, .channels]
      else u.lastValidTs = s.lastValidTs ∧ u.ch = s.ch ∧ u.linkUp = s.linkUp ∧ u.out.events = []

/-- R132 for the row FRAME_LINK_STATISTICS. -/
def Obligations.LinkStatsFrameRowCompletes : Prop :=
  ∀ (s : State) (a ck : Byte) (payload : List Byte) (now : Time),
    s.cfg.wf = true → s.rxBuf.wf = true → s.rxState = .addr → payload.length = s.cfg.lsPayload →
    ∃ u : State, exec (.frameLinkStatistics a payload ck now) s = .next u ∧ u.rxState = .addr ∧
      SameBoundary s u ∧ u.ch = s.ch ∧ u.linkUp = s.linkUp ∧ u.out.events = [] ∧
      if ck = crc8 s.cfg (s.cfg.typeLs :: payload) then u.lastValidTs = now ∧ u.ls = unpackLs s.cfg payload
      else u.lastValidTs = s.lastValidTs ∧ u.ls = s.ls

/-- R133 for the row FRAME_BATTERY_SENSOR: the timestamp only, and no error. -/
def Obligations.BatteryFrameRowCompletes : Prop :=
  ∀ (s : State) (a ck : Byte) (payload : List Byte) (now : Time),
    s.cfg.wf = true → s.rxBuf.wf = true → s.rxState = .addr → payload.length = s.cfg.btPayload →
    ∃ u : State, exec (.frameBatterySensor a payload ck now) s = .next u ∧ u.rxState = .addr ∧
      SameBoundary s u ∧ u.ch = s.ch ∧ u.linkUp = s.linkUp ∧ u.ls = s.ls ∧ u.out.events = [] ∧
      if ck = crc8 s.cfg (s.cfg.typeBt :: payload) then u.lastValidTs = now ∧ u.out.errors = []
      else u.lastValidTs = s.lastValidTs

/-- R134 and R135 (and R95, R98) for the row FRAME_OTHER, its sub-cases in the table's order: an illegal LEN drops the frame
at the LEN byte; a wrong checksum drops it; a good one refreshes the timestamp, raises UnsupportedFrameType and does
nothing else. -/
def Obligations.OtherFrameRowCompletes : Prop :=
  ∀ (s : State) (a len : Byte) (body : List Byte) (now : Time),
    s.cfg.wf = true → s.rxBuf.wf = true → s.rxState = .addr → (Instr.frameOther a len body now).wf s.cfg = true →
    ∃ u : State, exec (.frameOther a len body now) s = .next u ∧ u.rxState = .addr ∧
      SameBoundary s u ∧ u.ch = s.ch ∧ u.linkUp = s.linkUp ∧ u.ls = s.ls ∧ u.out.events = [] ∧
      ∀ (t ck : Byte) (payload : List Byte),
        (body = [] → u.lastValidTs = s.lastValidTs ∧ u.out.errors.map Raised.errorClass = [.framingError]) ∧
        (body = t :: (payload ++ [ck]) →
          if ck = crc8 s.cfg (t :: payload) then
            u.lastValidTs = now ∧ u.out.errors.map Raised.errorClass = [.unsupportedFrameType]
          else u.lastValidTs = s.lastValidTs ∧ u.out.errors.map Raised.errorClass = [.framingError])

/-! ## The serializer and the packers (R101 to R113) -/

/-- R101, R102: ENCODE returns the bytes of the frame for a pair of TYPE_TABLE; for any other pair it returns
`InvalidPayloadSize`, a caller's fault, and produces no bytes. Nothing else changes and nothing is transmitted. -/
def Obligations.EncodeReturnsFrameOrError : Prop :=
  ∀ (s : State) (t : Byte) (payload : List Byte),
    if (t, payload.length) ∈ [(s.cfg.typeRc, s.cfg.rcPayload), (s.cfg.typeLs, s.cfg.lsPayload),
        (s.cfg.typeBt, s.cfg.btPayload)] then
      ∃ frame : List Byte,
        frame = [s.cfg.txAddr, BitVec.ofNat 8 (payload.length + 2)] ++ ([t] ++ payload) ++
          [crc8 s.cfg ([t] ++ payload)] ∧
        exec (.encode t payload) s = .next { s with out := { result := .bytes frame } }
    else ∃ u : State, exec (.encode t payload) s = .next u ∧ u = { s with out := u.out } ∧
      u.out.result = .invalidPayloadSize ∧ u.out.tx = [] ∧ u.out.events = [] ∧ u.callerFault = true

/-- R113: SEND_CHANNELS hands the RC frame of the whole Channel Store to the outbound stream and writes nothing
else, whatever the link state. -/
def Obligations.SendChannelsTransmitsStore : Prop :=
  ∀ s : State, ∃ frame : List Byte,
    frame = [s.cfg.txAddr, BitVec.ofNat 8 (s.cfg.rcPayload + 2), s.cfg.typeRc] ++ packRc s.cfg s.ch ++
      [crc8 s.cfg (s.cfg.typeRc :: packRc s.cfg s.ch)] ∧
    exec .sendChannels s = .next { s with outbound := s.outbound ++ frame, out := { tx := frame } }

/-- Derived from R66, R109 and R110: SEND_BATTERY transmits one battery frame and writes no state of the block; under
R66's layout the payload is R109's `be16(v) ++ be16(i) ++ be24(c) ++ [pct]`. The clauses for every layout are the
model's choice of notes/assumptions/14.md: each field's bytes, most significant first, hold the truncated quotient (the
capacity itself), saturated to the width the layout gives the field, and the percentage stands unchanged in its byte. -/
def Obligations.SendBatteryTransmitsFields : Prop :=
  ∀ (s : State) (mv ma mah : Nat) (pct : Byte), s.cfg.wf = true →
    ∃ payload frame : List Byte,
      frame = [s.cfg.txAddr, BitVec.ofNat 8 (s.cfg.btPayload + 2), s.cfg.typeBt] ++ payload ++
        [crc8 s.cfg (s.cfg.typeBt :: payload)] ∧
      exec (.sendBattery mv ma mah pct) s = .next { s with outbound := s.outbound ++ frame, out := { tx := frame } } ∧
      payload.length = s.cfg.btPayload ∧
      beNat (s.cfg.btLayout.voltage.map fun k => payload.getD k 0) =
        min (mv / s.cfg.btVDiv) (2 ^ (8 * s.cfg.btLayout.voltage.length) - 1) ∧
      beNat (s.cfg.btLayout.current.map fun k => payload.getD k 0) =
        min (ma / s.cfg.btIDiv) (2 ^ (8 * s.cfg.btLayout.current.length) - 1) ∧
      beNat (s.cfg.btLayout.capacity.map fun k => payload.getD k 0) =
        min mah (2 ^ (8 * s.cfg.btLayout.capacity.length) - 1) ∧
      payload.getD s.cfg.btLayout.remaining 0 = pct ∧
      (s.cfg.btLayout = {} →
        payload = be16 (min (mv / s.cfg.btVDiv) 65535) ++ be16 (min (ma / s.cfg.btIDiv) 65535) ++
          be24 (min mah 16777215) ++ [pct])

/-- Derived from R64 ("bit j of w[i] is bit (11*(i-1) + j) mod 8 of payload byte (11*(i-1) + j) div 8"), R104, R105 and
the layout kept variable (its form is the model's choice of notes/assumptions/14.md): bit `j` of each wire field is the
payload bit that the layout names, in unpacking and in packing; under R64's layout that is payload bit `CH_BITS*(i-1) + j`. -/
def Obligations.RcFieldBits : Prop :=
  ∀ (c : Config) (k j : Nat), c.wf = true → k < c.nCh → j < c.chBits →
    ∃ p : Nat, p < 8 * c.rcPayload ∧ c.rcLayout[c.chBits * k + j]? = some p ∧
      (c.rcLayout = List.range (c.nCh * c.chBits) → p = c.chBits * k + j) ∧
      (∀ payload : List Byte,
        ((wireFields c payload).getD k 0).testBit j = (payload.getD (p / 8) 0).getLsbD (p % 8)) ∧
      ∀ chs : List Int, chs.length = c.nCh →
        ((packRc c chs).getD (p / 8) 0).getLsbD (p % 8) = (chToWire c (chs.getD k 0)).testBit j

/-- Derived from R64, R104 and R105, under R64's layout: the wire fields are the slices of the little-endian integer of
the payload, and the payload is the bytes of `P`, the sum of the wire values shifted to their places. -/
def Obligations.RcLayoutIsLittleEndianInteger : Prop :=
  ∀ c : Config, c.rcLayout = List.range (c.nCh * c.chBits) → c.nCh * c.chBits = 8 * c.rcPayload →
    (∀ payload : List Byte, wireFields c payload =
      (List.range c.nCh).map fun k => leNat payload / 2 ^ (c.chBits * k) % 2 ^ c.chBits) ∧
    ∀ chs : List Int, chs.length = c.nCh → (∀ v ∈ chs, chToWire c v < 2 ^ c.chBits) →
      packRc c chs = (List.range c.rcPayload).map fun k =>
        BitVec.ofNat 8 (packFields c.chBits (chs.map (chToWire c)) / 2 ^ (8 * k))

/-- Derived from R105 ("unpack_rc(pack_rc(c)) = c whenever every c[i] is in 0..2047"): the store survives packing and
unpacking, under the default wire conversion and every layout (the form of a layout is the model's choice of
notes/assumptions/14.md). -/
def Obligations.UnpackAfterPack : Prop :=
  ∀ (c : Config) (chs : List Int), c.wf = true → c.wireOverrides = [] → c.chOverrides = [] →
    chs.length = c.nCh → (∀ v ∈ chs, 0 ≤ v ∧ v < 2 ^ c.chBits) →
    unpackRc c (packRc c chs) = chs

/-- Derived from R214 ("a later SEND_CHANNELS transmits whatever the store then holds"): after a valid RC frame,
SEND_CHANNELS echoes its payload. -/
def Obligations.SendChannelsEchoesReceivedFrame : Prop :=
  ∀ (s : State) (a : Byte) (payload : List Byte) (now : Time),
    s.cfg.wf = true → s.rxBuf.wf = true → s.rxState = .addr → payload.length = s.cfg.rcPayload →
    ∃ u v : State,
      exec (.frameRcChannelsPacked a payload (crc8 s.cfg (s.cfg.typeRc :: payload)) now) s = .next u ∧
      exec .sendChannels u = .next v ∧
      v.out.tx = frameBytes s.cfg.txAddr (lenByte s.cfg.rcPayload) s.cfg.typeRc payload
        (crc8 s.cfg (s.cfg.typeRc :: payload))

/-! ## Channel Store access (R111, R112) -/

/-- R111: SET_CHANNEL stores the value saturated to `[CH_MIN, CH_MAX]` in the entry named and changes nothing else;
an index outside `1 .. N_CH` changes nothing. -/
def Obligations.SetChannelSaturates : Prop :=
  ∀ (s : State) (i : Nat) (v : Half), s.StoreShaped →
    if 1 ≤ i ∧ i ≤ s.cfg.nCh then
      ∃ t : State, exec (.setChannel i v) s = .next t ∧ t = { s with ch := t.ch, out := {} } ∧
        t.chRead i = some (max s.cfg.chMin (min v.toInt s.cfg.chMax)) ∧
        t.ch.length = s.ch.length ∧ ∀ j, j ≠ i → t.chRead j = s.chRead j
    else exec (.setChannel i v) s = .next { s with out := {} }

/-- R112: GET_CHANNEL returns `ch[i]` and changes no state; an index outside `1 .. N_CH` is refused. -/
def Obligations.GetChannelReadsEntry : Prop :=
  ∀ (s : State) (i : Nat), s.ch.length = s.cfg.nCh →
    if h : 1 ≤ i ∧ i ≤ s.cfg.nCh ∧ i - 1 < s.ch.length then
      exec (.getChannel i) s = .next { s with out := { result := .channel (s.ch[i - 1]'h.2.2) } }
    else exec (.getChannel i) s = .refused (.channelIndex i)

/-! ## The link's reads, RESET, reserved selectors -/

/-- R140: IS_LINK_UP returns `link_up` and changes no state; it does not run the timeout. -/
def Obligations.IsLinkUpReturnsFlag : Prop :=
  ∀ s : State, exec .isLinkUp s = .next { s with out := { result := .bit s.linkUp } }

/-- Derived from R141: GET_LINK_STATS returns the whole record and changes no state. -/
def Obligations.GetLinkStatsReturnsRecord : Prop :=
  ∀ s : State, exec .getLinkStats s = .next { s with out := { result := .stats s.ls } }

/-- R210, R211: RESET gives every piece of state that R211 specifies its reset value, in any state, returns nothing
and emits nothing (a link that was `Up` goes `Down` without `ev_link_down`). What R211 leaves unspecified is not
stated. -/
def Obligations.ResetRestoresSpecifiedState : Prop :=
  ∀ s : State, s.cfg.wfRange = true → ∃ t : State, exec .reset s = .next t ∧
    (∀ i, 1 ≤ i → i ≤ s.cfg.nCh → t.chRead i = some s.cfg.chCenter) ∧
    t.rxState = .addr ∧ t.linkUp = false ∧ t.ls = {} ∧ t.out = {} ∧ t.cfg = s.cfg

/-- Derived, the model's choice of notes/assumptions/21.md: RESET leaves what the environment has presented and what
it has been sent. -/
def Obligations.ResetLeavesBoundary : Prop :=
  ∀ s t : State, exec .reset s = .next t → SameBoundary s t

/-- Derived from R211 and R6: the state right after reset, under R6's defaults. -/
def Obligations.StateAfterReset : Prop :=
  (∀ i, 1 ≤ i → i ≤ 16 → State.reset.chRead i = some 1500) ∧
    State.reset.ch.length = 16 ∧ State.reset.rxState = .addr ∧ State.reset.linkUp = false ∧
    State.reset.ls = {} ∧ State.reset.out = {}

/-- R76: the selectors 0x0, 0xB, 0xC, 0xD and 0xE name no operation; presenting one is refused. -/
def Obligations.ReservedSelectorsRefused : Prop :=
  ∀ s : State,
    exec .reserved0 s = .refused (.reservedSelector 0x0) ∧ exec .reservedB s = .refused (.reservedSelector 0xB) ∧
      exec .reservedC s = .refused (.reservedSelector 0xC) ∧ exec .reservedD s = .refused (.reservedSelector 0xD) ∧
      exec .reservedE s = .refused (.reservedSelector 0xE)

/-! ## CTRL_TICK (42_channel_mixer.md R150 to R165) -/

/-- Derived from R150 to R155, R136 and R163: a tick completes; the link goes `Down`, with
`ev_link_down`, exactly when it was `Up` and more than `T_FS1` has passed since the last valid frame; with the mode
selector active each channel takes the mapped value of its last available sample, otherwise no channel changes; the
parser, the statistics, the timestamp and the boundary are unchanged, and one Mix Output is published. -/
def Obligations.ControlTickCompletes : Prop :=
  ∀ (s : State) (now : Time) (mixEn : Bool) (axes : List (Option Half)), s.StoreShaped →
    (Instr.ctrlTick now mixEn axes).wf s.cfg = true →
    ∃ (u : State) (o : MixOutput), exec (.ctrlTick now mixEn axes) s = .next u ∧
      SameParser s u ∧ SameBoundary s u ∧ u.ls = s.ls ∧ u.lastValidTs = s.lastValidTs ∧
      u.linkUp = (s.linkUp && decide (((now : Int) - s.lastValidTs) % 2 ^ s.cfg.timeW ≤ s.cfg.tFs1)) ∧
      u.out = { events := if s.linkUp && !u.linkUp then [.linkDown] else [], mix := some o } ∧
      u.ch.length = s.ch.length ∧
      ∀ j, u.chRead j =
        match mixEn, lastSample j (s.cfg.axisCh.zip axes) with
        | true, some v => some (axisToCh s.cfg v.toInt)
        | _, _ => s.chRead j

/-- Derived from R136: what a tick does to the link: it falls, with one `ev_link_down`, exactly when it was `Up` and the elapsed
time exceeds `T_FS1`, strictly; `last_valid_ts` is not changed. -/
def Obligations.LinkTimeoutIsStrict : Prop :=
  ∀ (s : State) (now : Time) (mixEn : Bool) (axes : List (Option Half)), s.StoreShaped →
    (Instr.ctrlTick now mixEn axes).wf s.cfg = true →
    ∃ u : State, exec (.ctrlTick now mixEn axes) s = .next u ∧ u.lastValidTs = s.lastValidTs ∧
      if s.linkUp = true ∧ (s.cfg.tFs1 : Int) < ((now : Int) - s.lastValidTs) % 2 ^ s.cfg.timeW then
        u.linkUp = false ∧ u.out.events = [.linkDown]
      else u.linkUp = s.linkUp ∧ u.out.events = []

/-- R156 to R159 (and R161), differential drive: with `vA` and `vB` the mix channels after the tick's store writes, the
drives published are the sign and the scaled magnitude of the deadbanded `(a - b) / 2` and `-(a + b) / 2`, truncated
toward zero; while `Down` they are zero duty. -/
def Obligations.TickPublishesDrives : Prop :=
  ∀ (s : State) (now : Time) (mixEn : Bool) (axes : List (Option Half)), s.StoreShaped →
    (Instr.ctrlTick now mixEn axes).wf s.cfg = true → s.cfg.mixKind = .diff →
    ∃ (u : State) (vA vB : Int), exec (.ctrlTick now mixEn axes) s = .next u ∧
      u.chRead s.cfg.mixA = some vA ∧ u.chRead s.cfg.mixB = some vB ∧
      let a := max (-s.cfg.chHalf) (min (vA - s.cfg.chCenter) s.cfg.chHalf)
      let b := max (-s.cfg.chHalf) (min (vB - s.cfg.chCenter) s.cfg.chHalf)
      let left := if |(a - b).tdiv 2| < s.cfg.dbThresh then 0 else (a - b).tdiv 2
      let right := if |(a + b).tdiv 2| < s.cfg.dbThresh then 0 else -(a + b).tdiv 2
      u.out.mix = some (
        if u.linkUp then
          .diff { dir := decide (left < 0), duty := left.natAbs * s.cfg.dutyMax / s.cfg.chHalf.toNat }
            { dir := decide (right < 0), duty := right.natAbs * s.cfg.dutyMax / s.cfg.chHalf.toNat }
        else .diff { dir := false, duty := 0 } { dir := false, duty := 0 })

/-- R160 (and R161), servo outputs: each pulse is its channel saturated to `[CH_MIN, CH_MAX]`; while `Down` every pulse
is `SAFE_PULSE`. -/
def Obligations.TickPublishesPulses : Prop :=
  ∀ (s : State) (now : Time) (mixEn : Bool) (axes : List (Option Half)), s.StoreShaped →
    (Instr.ctrlTick now mixEn axes).wf s.cfg = true → s.cfg.mixKind = .servo →
    ∃ (u : State) (vs : List Int), exec (.ctrlTick now mixEn axes) s = .next u ∧
      s.cfg.servoCh.map u.chRead = vs.map some ∧
      u.out.mix = some (.servo (
        if u.linkUp then vs.map fun v => max s.cfg.chMin (min v s.cfg.chMax)
        else s.cfg.servoCh.map fun _ => s.cfg.safePulse))

/-- R161: "While `Down`, Mixing Loop output is the configured safe value regardless of input-device samples":
whatever the mode and the samples, a tick whose link is `Down` publishes the safe value. -/
def Obligations.SafeOutputWhileDown : Prop :=
  ∀ (s : State) (now : Time) (mixEn : Bool) (axes : List (Option Half)), s.StoreShaped →
    (s.linkUp = false ∨ (s.cfg.tFs1 : Int) < ((now : Int) - s.lastValidTs) % 2 ^ s.cfg.timeW) →
    ∃ u : State, exec (.ctrlTick now mixEn axes) s = .next u ∧ u.linkUp = false ∧
      match s.cfg.mixKind with
      | .diff => u.out.mix = some (.diff { dir := false, duty := 0 } { dir := false, duty := 0 })
      | .servo => u.out.mix = some (.servo (List.replicate s.cfg.servoCh.length s.cfg.safePulse))

/-- R165: the Mix Output is a function of the parameters, `link_up` after the timeout step and the Channel Store
after the store-write step, and of nothing else. -/
def Obligations.MixDependsOnStoreAndLinkOnly : Prop :=
  ∀ (s₁ s₂ u₁ u₂ : State) (now₁ now₂ : Time) (en₁ en₂ : Bool) (axes₁ axes₂ : List (Option Half)),
    exec (.ctrlTick now₁ en₁ axes₁) s₁ = .next u₁ → exec (.ctrlTick now₂ en₂ axes₂) s₂ = .next u₂ →
    s₁.cfg = s₂.cfg → u₁.linkUp = u₂.linkUp → u₁.ch = u₂.ch → u₁.out.mix = u₂.out.mix

/-- R153, R154: the mapped value is the centre plus the exact quotient truncated toward zero, and lies in
`[CH_MIN, CH_MAX]`; stated by its defining inequalities, so the two ends of the axis map to centre plus and minus the
half range. -/
def Obligations.AxisMappingTruncatesOnce : Prop :=
  ∀ (c : Config) (x : Int), c.wfRange = true → 0 < c.axisMax → c.axisMin < 0 → ∃ q : Int,
    axisToCh c x = max c.chMin (min (c.chCenter + q) c.chMax) ∧
    (0 ≤ x → 0 ≤ q ∧ q * c.axisMax ≤ x * c.chHalf ∧ x * c.chHalf < (q + 1) * c.axisMax) ∧
    (x < 0 → q ≤ 0 ∧ x * c.chHalf ≤ q * -c.axisMin ∧ (q - 1) * -c.axisMin < x * c.chHalf) ∧
    (x = c.axisMax → q = c.chHalf) ∧ (x = c.axisMin → q = -c.chHalf)

/-- Derived from R158: "any mixed value with magnitude strictly less than the deadband threshold is forced to neutral; values at or
outside the threshold pass through unmodified". -/
def Obligations.DeadbandIsExactAtThreshold : Prop :=
  ∀ (c : Config) (v : Int), (|v| < c.dbThresh → db c v = 0) ∧ ((c.dbThresh : Int) ≤ |v| → db c v = v)

/-- Derived from R157 ("Both are in -CH_HALF..+CH_HALF") and R159: no mix leaves the symmetric domain, and every duty
published in any tick is at most `DUTY_MAX`. -/
def Obligations.DutyWithinScale : Prop :=
  (∀ (c : Config) (vA vB : Int), 0 < c.chHalf →
    |leftRaw (sym c vA) (sym c vB)| ≤ c.chHalf ∧ |rightRaw (sym c vA) (sym c vB)| ≤ c.chHalf) ∧
  ∀ (s u : State) (now : Time) (mixEn : Bool) (axes : List (Option Half)) (l r : Drive),
    exec (.ctrlTick now mixEn axes) s = .next u → u.out.mix = some (.diff l r) →
    l.duty ≤ s.cfg.dutyMax ∧ r.duty ≤ s.cfg.dutyMax

/-! ## CRC-8 (R90 to R92) -/

/-- Derived from R92 item 2 ("any single-bit corruption in type/payload/checksum must cause rejection"), in a stronger
form: under a polynomial with constant term 1, two sequences that differ in exactly one byte have different
checksums. -/
def Obligations.CrcDetectsOneByteError : Prop :=
  ∀ (c : Config) (before after : List Byte) (x y : Byte), c.crcPoly.getLsbD 0 = true → x ≠ y →
    crc8 c (before ++ x :: after) ≠ crc8 c (before ++ y :: after)

/-- Derived from R92 item 3: a sequence followed by its checksum has checksum 0, without reflection and final XOR. -/
def Obligations.CrcResidueIsZero : Prop :=
  ∀ (c : Config) (s : List Byte), c.crcRefIn = false → c.crcRefOut = false → c.crcXorOut = 0 →
    crc8 c (s ++ [crc8 c s]) = 0

/-! ## Decoding and stepping -/

/-- Decode and encode agree, for every instruction under every well-formed configuration: nothing of an encoding is
dropped and nothing remains. Derived; the lanes are the model's choice of notes/assumptions/3.md, the wire bytes are
R60's. -/
def Obligations.DecodeOfEncode : Prop :=
  ∀ (c : Config) (i : Instr), c.wf = true → i.wf c = true → decode c (encode c i) = .ok (i, [])

/-- The other direction on the operation port: what a selector that names an operation decodes to encodes to the same
lanes. Derived, with notes/assumptions/3.md. -/
def Obligations.EncodeOfDecodedPort : Prop :=
  ∀ (c : Config) (op : Sel) (lanes : List Int) (i : Instr) (more : List Presented),
    decode c (.port op lanes) = .ok (i, more) → op ∉ [0x0, 0xB, 0xC, 0xD, 0xE] →
    encode c i = .port op lanes ∧ more = [] ∧ i.wf c = true

/-- On the wire no byte is dropped: the frame decoded first and what remains are the bytes presented, and the frame is
well-formed, or else all of them are one RX_TICK. Derived from R60, R61 and R41 ("each exactly once"). That bytes
holding no whole frame are one RX_TICK is the model's choice of notes/assumptions/4.md, and that a frame with an
illegal LEN is the two bytes of its FRAME_OTHER is that of notes/assumptions/5.md: no rule says either. -/
def Obligations.WireDecodeKeepsEveryByte : Prop :=
  ∀ (c : Config) (bytes : List Byte) (now : Time), c.wf = true → now < 2 ^ c.timeW →
    match encode c (decodeWire c bytes now).1 with
    | .wire bs n => bs ++ (decodeWire c bytes now).2 = bytes ∧ n = now ∧ (decodeWire c bytes now).1.wf c = true
    | .port _ _ => decodeWire c bytes now = (.rxTick bytes now, [])

/-- A few words written out from R75, R60, R64 to R66 and the opcode table decode to their rows (a sanity
statement). -/
def Obligations.TableWordsDecode : Prop :=
  decodeTableWord 8 0x1 = some (.rxByte 0 0) ∧ decodeTableWord 8 0x6 = some .sendChannels ∧
    decodeTableWord 8 0x9 = some .isLinkUp ∧ decodeTableWord 8 0xF = some .reset ∧
    decodeTableWord 8 0xB = some .reservedB ∧
    decodeTableWord 24 0xC80A08 = some (.frameBatterySensor 0xC8 [0, 0, 0, 0, 0, 0, 0, 0] 0 0)

/-- A step runs the decoded instruction: when the presentation at the head of `pending` decodes to `i`, step is exec
of `i` with that presentation taken (what remains of it stays at the head); lanes that are no operands of their row
are refused. Derived, the model's form of presenting (notes/assumptions/2.md). -/
def Obligations.StepRunsDecodedInstruction : Prop :=
  ∀ (s : State) (p : Presented) (rest : List Presented), s.pending = p :: rest →
    match decode s.cfg p with
    | .ok (i, more) => step s = exec i { s with pending := more ++ rest }
    | .error e => step s = .refused (.badOperands e)

/-- Derived from R195: "an idle block is one that receives no operation, and it keeps all its state". -/
def Obligations.IdleStepKeepsAllState : Prop :=
  ∀ s : State, s.pending = [] → step s = .next s

/-- Derived from R100, R78, R51 (the bytes of the inbound stream are parsed in arrival order): taking a presentation
of wire bytes frame by frame reaches the same state as one RX_TICK of all of them (but for the outputs, which belong
to each operation). -/
def Obligations.WireStepsRefineRxTick : Prop :=
  ∀ (s : State) (bytes : List Byte) (now : Time), s.Inv → now < 2 ^ s.cfg.timeW →
    s.pending = [.wire bytes now] →
    ∃ (k : Nat) (u v : State), Host.Core.run Sys2Proof.core k s = .next u ∧ u.pending = [] ∧
      exec (.rxTick bytes now) { s with pending := [] } = .next v ∧ { u with out := {} } = { v with out := {} }

/-! ## Invariants and whole-machine rules -/

/-- Derived from R22 and R211: the state after reset is good. -/
def Obligations.InvAfterReset : Prop := State.reset.Inv

/-- Derived from R22 (items 1 to 3), R11, R14: every step keeps the invariants, from every state that has them. -/
def Obligations.StepKeepsInvariants : Prop :=
  ∀ s t : State, s.Inv → step s = .next t → t.Inv

/-- Derived from R47 ("rx_buf is never indexed out of range"), R93 and R150 ("the operation is total"): from a good
state no step faults. -/
def Obligations.NoStepFaults : Prop :=
  ∀ (s : State) (f : Fault), s.Inv → step s ≠ .fault f

/-- Derived from R11 (the range of a Channel Value "at all times"), under the default wire conversion: every step
keeps every channel in `[min(CH_MIN, 0), max(CH_MAX, 2^CH_BITS - 1)]`. -/
def Obligations.ChannelRangeKept : Prop :=
  ∀ s t : State, s.Inv → s.cfg.wireOverrides = [] → s.ChannelRange → step s = .next t → t.ChannelRange

/-- Derived from R54 ("fixed by the parameters of R6, which no operation can change"): no step changes the configuration. -/
def Obligations.NoStepChangesParameters : Prop :=
  ∀ s t : State, step s = .next t → t.cfg = s.cfg

/-- Derived from R139: in any sequence of operations without RESET, from any state, the link notifications alternate,
the first being `ev_link_up` exactly when the link starts `Down`; and the link ends `Up` exactly as they say. RESET is
left out because it lowers the link without a notification (R210; notes/assumptions/25.md). -/
def Obligations.LinkNotificationsAlternate : Prop :=
  ∀ (is : List Instr) (s : State), Instr.reset ∉ is →
    alternates s.linkUp (runOps is s).2 = true ∧
      (runOps is s).1.linkUp =
        match ((runOps is s).2.filter fun e => decide (e ≠ .channels)).getLast? with
        | some e => decide (e = .linkUp)
        | none => s.linkUp

/-- Derived from R22 item 4: after any sequence of operations without RESET from a state with the link `Down`, if the
link is `Up` then `last_valid_ts` is the `now` of one of the receive operations of the sequence. -/
def Obligations.TimestampComesFromReceive : Prop :=
  ∀ (is : List Instr) (s : State), s.linkUp = false → Instr.reset ∉ is → (runOps is s).1.linkUp = true →
    ∃ i ∈ is, receiveTime i = some (runOps is s).1.lastValidTs

/-- Derived from R131 ("the only rule that sets link_up"): an operation that raises the link is one of the receive activity,
carries the new timestamp and emits `ev_link_up`. -/
def Obligations.OnlyReceivingRaisesLink : Prop :=
  ∀ (i : Instr) (s t : State), exec i s = .next t → s.linkUp = false → t.linkUp = true →
    Agent.receive.issues i = true ∧ receiveTime i = some t.lastValidTs ∧ Event.linkUp ∈ t.out.events

/-- Derived from R136 ("the only rule that clears link_up apart from reset"): an operation that lowers the link is RESET, or a
CTRL_TICK that finds the threshold exceeded and emits `ev_link_down`. -/
def Obligations.OnlyTimeoutOrResetLowersLink : Prop :=
  ∀ (i : Instr) (s t : State), exec i s = .next t → s.linkUp = true → t.linkUp = false →
    i = .reset ∨ ∃ now mixEn axes, i = .ctrlTick now mixEn axes ∧
      (s.cfg.tFs1 : Int) < ((now : Int) - s.lastValidTs) % 2 ^ s.cfg.timeW ∧ t.out.events = [.linkDown]

/-- Derived from R194 and R50: the observer "must only read published state, never mutate it": its operations change no state, send
nothing and notify nobody. -/
def Obligations.ObserverChangesNothing : Prop :=
  ∀ (i : Instr) (s t : State), Agent.observer.issues i = true → exec i s = .next t →
    SameBlock s t ∧ t.outbound = s.outbound ∧ t.out.events = []

/-- Derived from R194, the row of the receive activity: it never lowers the link, sends nothing and publishes nothing. -/
def Obligations.ReceiveActivityFrame : Prop :=
  ∀ (i : Instr) (s t : State), Agent.receive.issues i = true → exec i s = .next t →
    SameBoundary s t ∧ (s.linkUp = true → t.linkUp = true) ∧ t.out.tx = [] ∧ t.out.mix = none ∧
      Event.linkDown ∉ t.out.events

/-- Derived from R194, the row of the transmit/control activity: it may change the Channel Store and lower the link, and nothing
else of the block. -/
def Obligations.ControlActivityFrame : Prop :=
  ∀ (i : Instr) (s t : State), Agent.control.issues i = true → exec i s = .next t →
    SameParser s t ∧ t.cfg = s.cfg ∧ t.pending = s.pending ∧ t.lastValidTs = s.lastValidTs ∧ t.ls = s.ls ∧
      (t.linkUp = true → s.linkUp = true) ∧ Event.linkUp ∉ t.out.events ∧ Event.channels ∉ t.out.events
end

