-- ==== Sys2Proof/Laws/Config.lean ====
section
/-!
SUPPORT. What a well-formed configuration gives (00_scope.md R6), clause by clause.
-/

namespace Sys2Proof

open Sys2Proof.Machine

theorem Config.wf_parts {c : Config} (h : c.wf = true) :
    c.wfSizes = true ∧ c.wfTypes = true ∧ c.wfRange = true ∧ c.wfDivisors = true ∧ c.wfIndices = true ∧
      c.wfLayouts = true ∧ c.wfWire = true := by
  simp only [Config.wf, Bool.and_eq_true] at h
  tauto

theorem Config.wf_sizes {c : Config} (h : c.wf = true) :
    c.nCh * c.chBits = 8 * c.rcPayload ∧ c.rcPayload ≤ c.maxPayload ∧ c.lsPayload ≤ c.maxPayload ∧
      c.btPayload ≤ c.maxPayload ∧ c.maxPayload ≤ 253 := by
  have := (Config.wf_parts h).1
  simp only [Config.wfSizes, Bool.and_eq_true, decide_eq_true_eq] at this
  tauto

theorem Config.wf_types {c : Config} (h : c.wf = true) :
    c.typeRc ≠ c.typeLs ∧ c.typeRc ≠ c.typeBt ∧ c.typeLs ≠ c.typeBt := by
  have := (Config.wf_parts h).2.1
  simp only [Config.wfTypes, Bool.and_eq_true, decide_eq_true_eq] at this
  tauto

/-! ## Widths (R7, R9, R11) -/

theorem Config.fitsCh_iff {c : Config} {v : Int} :
    c.fitsCh v = true ↔ -(2 ^ c.chW : Int) ≤ 2 * v ∧ 2 * v < (2 ^ c.chW : Int) := by
  simp [Config.fitsCh]

theorem Config.fitsTime_iff {c : Config} {t : Time} : c.fitsTime t = true ↔ t < 2 ^ c.timeW := by
  simp [Config.fitsTime]

/-- A value that fits `CH_W` bits is stored as it is. -/
theorem Config.toCh_of_fits {c : Config} {v : Int} (h : c.fitsCh v = true) : c.toCh v = v := by
  obtain ⟨h1, h2⟩ := Config.fitsCh_iff.1 h
  have hp : (0 : Int) < 2 ^ c.chW := by positivity
  unfold Config.toCh
  have hc : ((2 ^ c.chW : Nat) : Int) = (2 : Int) ^ c.chW := by push_cast; rfl
  rw [Int.bmod_eq_of_le_mul_two] <;> omega

/-- Whatever is stored fits `CH_W` bits. -/
theorem Config.fitsCh_toCh (c : Config) (v : Int) : c.fitsCh (c.toCh v) = true := by
  have hp : 0 < 2 ^ c.chW := by positivity
  have hc : ((2 ^ c.chW : Nat) : Int) = (2 : Int) ^ c.chW := by push_cast; rfl
  have h1 := Int.le_bmod (x := v) hp
  have h2 := Int.bmod_lt (x := v) hp
  rw [Config.fitsCh_iff]
  unfold Config.toCh
  omega

/-- What lies between two values that fit, fits. -/
theorem Config.fitsCh_between {c : Config} {lo hi v : Int} (hlo : c.fitsCh lo = true) (hhi : c.fitsCh hi = true)
    (h1 : lo ≤ v) (h2 : v ≤ hi) : c.fitsCh v = true := by
  rw [Config.fitsCh_iff] at *
  omega

theorem Config.wfRange_parts {c : Config} (h : c.wfRange = true) :
    0 < c.chHalf ∧ c.chMin ≤ c.chCenter ∧ c.chCenter ≤ c.chMax ∧ c.fitsCh c.chMin = true ∧
      c.fitsCh c.chMax = true ∧ c.fitsTime c.tFs1 = true := by
  simp only [Config.wfRange, Bool.and_eq_true, decide_eq_true_eq] at h
  tauto

theorem Config.wf_range {c : Config} (h : c.wf = true) : c.wfRange = true := (Config.wf_parts h).2.2.1

/-- A value saturated to `[CH_MIN, CH_MAX]` is stored as it is. -/
theorem Config.toCh_of_range {c : Config} (h : c.wfRange = true) {v : Int} (h1 : c.chMin ≤ v) (h2 : v ≤ c.chMax) :
    c.toCh v = v := by
  obtain ⟨-, -, -, hlo, hhi, -⟩ := Config.wfRange_parts h
  exact Config.toCh_of_fits (Config.fitsCh_between hlo hhi h1 h2)

theorem Config.wf_divisors {c : Config} (h : c.wf = true) :
    0 < c.axisMax ∧ c.axisMin < 0 ∧ 0 < c.btVDiv ∧ 0 < c.btIDiv := by
  have := (Config.wf_parts h).2.2.2.1
  simp only [Config.wfDivisors, Bool.and_eq_true, decide_eq_true_eq] at this
  tauto

theorem Config.wf_indices {c : Config} (h : c.wf = true) :
    c.chanIndex c.mixA = true ∧ c.chanIndex c.mixB = true ∧ (∀ k ∈ c.axisCh, c.chanIndex k = true) ∧
      ∀ k ∈ c.servoCh, c.chanIndex k = true := by
  have := (Config.wf_parts h).2.2.2.2.1
  simp only [Config.wfIndices, Bool.and_eq_true, List.all_eq_true] at this
  tauto

/-! ## Layouts (R64 to R66) -/

theorem layoutCovers_iff {n : Nat} {ps : List Nat} :
    layoutCovers n ps = true ↔ ps.length = n ∧ ∀ p < n, p ∈ ps := by
  simp [layoutCovers, List.all_eq_true]

/-- A layout that covers its payload names each place once, and no other. -/
theorem layoutCovers_perm {n : Nat} {ps : List Nat} (h : layoutCovers n ps = true) : ps.Perm (List.range n) := by
  obtain ⟨h1, h2⟩ := layoutCovers_iff.1 h
  exact ((List.subperm_of_subset List.nodup_range fun p hp => h2 p (List.mem_range.1 hp)).perm_of_length_le
    (by simp [h1])).symm

theorem layoutCovers_nodup {n : Nat} {ps : List Nat} (h : layoutCovers n ps = true) : ps.Nodup :=
  (layoutCovers_perm h).nodup_iff.2 List.nodup_range

theorem layoutCovers_mem {n p : Nat} {ps : List Nat} (h : layoutCovers n ps = true) : p ∈ ps ↔ p < n := by
  rw [(layoutCovers_perm h).mem_iff, List.mem_range]

theorem layoutCovers_range (n : Nat) : layoutCovers n (List.range n) = true :=
  layoutCovers_iff.2 ⟨List.length_range, fun _ hp => List.mem_range.2 hp⟩

theorem Config.wf_layouts {c : Config} (h : c.wf = true) :
    layoutCovers (8 * c.rcPayload) c.rcLayout = true ∧ (∀ p ∈ c.lsLayout.positions, p < c.lsPayload) ∧
      layoutCovers c.btPayload c.btLayout.positions = true := by
  have := (Config.wf_parts h).2.2.2.2.2.1
  simp only [Config.wfLayouts, Bool.and_eq_true, List.all_eq_true, decide_eq_true_eq] at this
  tauto

/-! ## The wire conversion (R106) -/

theorem Config.wf_wire {c : Config} (h : c.wf = true) {w : Nat} (hw : w < 2 ^ c.chBits) :
    chToWire c (wireToCh c w) = w ∧ c.fitsCh (wireToCh c w) = true := by
  have := (Config.wf_parts h).2.2.2.2.2.2
  simp only [Config.wfWire, Bool.and_eq_true, List.all_eq_true, List.mem_range, decide_eq_true_eq] at this
  exact this.2 w hw

/-- Under the default conversion of R106 the wire condition holds for fields narrower than a Channel Value. -/
theorem Config.wfWire_of_default {c : Config} (h1 : c.wireOverrides = []) (h2 : c.chOverrides = [])
    (h3 : c.chBits < c.chW) : c.wfWire = true := by
  have hp : (2 : Nat) ^ (c.chBits + 1) ≤ 2 ^ c.chW := Nat.pow_le_pow_right (by omega) h3
  simp only [Config.wfWire, h2, List.all_nil, Bool.true_and, List.all_eq_true, List.mem_range, Bool.and_eq_true,
    decide_eq_true_eq, Config.fitsCh_iff]
  intro w hw
  have e : wireToCh c w = (w : Int) := by
    unfold wireToCh
    rw [h1]
    rfl
  have hs : ((2 : Int) ^ c.chBits) = ((2 ^ c.chBits : Nat) : Int) := by push_cast; rfl
  have hc : ((2 : Int) ^ c.chW) = ((2 ^ c.chW : Nat) : Int) := by push_cast; rfl
  rw [pow_succ] at hp
  refine ⟨?_, by omega, by omega⟩
  rw [e]
  unfold chToWire
  rw [h2]
  simp only [List.lookup_nil, Option.getD_none]
  unfold sat
  rw [hs, if_neg (by omega), if_neg (by omega)]
  omega

/-- The default configuration is well-formed. -/
theorem Config.wf_default : Config.default.wf = true := by
  have hw : Config.default.wfWire = true := Config.wfWire_of_default rfl rfl (by decide)
  have hl : Config.default.wfLayouts = true := by
    unfold Config.wfLayouts
    rw [show layoutCovers (8 * Config.default.rcPayload) Config.default.rcLayout = true from layoutCovers_range 176]
    decide
  have hr : (Config.default.wfSizes && Config.default.wfTypes && Config.default.wfRange &&
    Config.default.wfDivisors && Config.default.wfIndices) = true := by decide
  unfold Config.wf
  rw [hr, hl, hw]
  rfl

/-- Saturation (R8) between bounds in order. -/
theorem sat_eq {lo hi : Int} (v : Int) (h : lo ≤ hi) : sat v lo hi = max lo (min v hi) := by
  unfold sat
  split
  · omega
  · split <;> omega

theorem sat_bounds {lo hi : Int} (v : Int) (h : lo ≤ hi) : lo ≤ sat v lo hi ∧ sat v lo hi ≤ hi := by
  rw [sat_eq v h]
  omega

theorem absI_eq (v : Int) : absI v = |v| := by
  unfold absI
  split
  · rw [abs_of_nonneg (by omega)]
  · rw [abs_of_neg (by omega)]

end Sys2Proof
end

