-- ==== Sys2Proof/Laws/State.lean ====
section
/-!
SUPPORT. One lemma per field per unconditional update of the state, true by rfl, so that no later proof unfolds a
record update. Updates with a condition have their one spec lemma in Laws/Ops.lean.
-/

namespace Sys2Proof.Machine

/-! ## State.begin -/

@[simp] theorem State.begin_cfg (s : State) : (s.begin).cfg = s.cfg := rfl
@[simp] theorem State.begin_ch (s : State) : (s.begin).ch = s.ch := rfl
@[simp] theorem State.begin_rxState (s : State) : (s.begin).rxState = s.rxState := rfl
@[simp] theorem State.begin_rxAddr (s : State) : (s.begin).rxAddr = s.rxAddr := rfl
@[simp] theorem State.begin_rxLen (s : State) : (s.begin).rxLen = s.rxLen := rfl
@[simp] theorem State.begin_rxType (s : State) : (s.begin).rxType = s.rxType := rfl
@[simp] theorem State.begin_rxIdx (s : State) : (s.begin).rxIdx = s.rxIdx := rfl
@[simp] theorem State.begin_rxCrc (s : State) : (s.begin).rxCrc = s.rxCrc := rfl
@[simp] theorem State.begin_rxBuf (s : State) : (s.begin).rxBuf = s.rxBuf := rfl
@[simp] theorem State.begin_linkUp (s : State) : (s.begin).linkUp = s.linkUp := rfl
@[simp] theorem State.begin_lastValidTs (s : State) : (s.begin).lastValidTs = s.lastValidTs := rfl
@[simp] theorem State.begin_ls (s : State) : (s.begin).ls = s.ls := rfl
@[simp] theorem State.begin_pending (s : State) : (s.begin).pending = s.pending := rfl
@[simp] theorem State.begin_outbound (s : State) : (s.begin).outbound = s.outbound := rfl
@[simp] theorem State.begin_out (s : State) : (s.begin).out = {} := rfl

/-! ## State.emit -/

@[simp] theorem State.emit_cfg (e : Event) (s : State) : (s.emit e).cfg = s.cfg := rfl
@[simp] theorem State.emit_ch (e : Event) (s : State) : (s.emit e).ch = s.ch := rfl
@[simp] theorem State.emit_rxState (e : Event) (s : State) : (s.emit e).rxState = s.rxState := rfl
@[simp] theorem State.emit_rxAddr (e : Event) (s : State) : (s.emit e).rxAddr = s.rxAddr := rfl
@[simp] theorem State.emit_rxLen (e : Event) (s : State) : (s.emit e).rxLen = s.rxLen := rfl
@[simp] theorem State.emit_rxType (e : Event) (s : State) : (s.emit e).rxType = s.rxType := rfl
@[simp] theorem State.emit_rxIdx (e : Event) (s : State) : (s.emit e).rxIdx = s.rxIdx := rfl
@[simp] theorem State.emit_rxCrc (e : Event) (s : State) : (s.emit e).rxCrc = s.rxCrc := rfl
@[simp] theorem State.emit_rxBuf (e : Event) (s : State) : (s.emit e).rxBuf = s.rxBuf := rfl
@[simp] theorem State.emit_linkUp (e : Event) (s : State) : (s.emit e).linkUp = s.linkUp := rfl
@[simp] theorem State.emit_lastValidTs (e : Event) (s : State) : (s.emit e).lastValidTs = s.lastValidTs := rfl
@[simp] theorem State.emit_ls (e : Event) (s : State) : (s.emit e).ls = s.ls := rfl
@[simp] theorem State.emit_pending (e : Event) (s : State) : (s.emit e).pending = s.pending := rfl
@[simp] theorem State.emit_outbound (e : Event) (s : State) : (s.emit e).outbound = s.outbound := rfl
@[simp] theorem State.emit_out (e : Event) (s : State) : (s.emit e).out = { s.out with events := s.out.events ++ [e] } := rfl

/-! ## State.answer -/

@[simp] theorem State.answer_cfg (r : Result) (s : State) : (s.answer r).cfg = s.cfg := rfl
@[simp] theorem State.answer_ch (r : Result) (s : State) : (s.answer r).ch = s.ch := rfl
@[simp] theorem State.answer_rxState (r : Result) (s : State) : (s.answer r).rxState = s.rxState := rfl
@[simp] theorem State.answer_rxAddr (r : Result) (s : State) : (s.answer r).rxAddr = s.rxAddr := rfl
@[simp] theorem State.answer_rxLen (r : Result) (s : State) : (s.answer r).rxLen = s.rxLen := rfl
@[simp] theorem State.answer_rxType (r : Result) (s : State) : (s.answer r).rxType = s.rxType := rfl
@[simp] theorem State.answer_rxIdx (r : Result) (s : State) : (s.answer r).rxIdx = s.rxIdx := rfl
@[simp] theorem State.answer_rxCrc (r : Result) (s : State) : (s.answer r).rxCrc = s.rxCrc := rfl
@[simp] theorem State.answer_rxBuf (r : Result) (s : State) : (s.answer r).rxBuf = s.rxBuf := rfl
@[simp] theorem State.answer_linkUp (r : Result) (s : State) : (s.answer r).linkUp = s.linkUp := rfl
@[simp] theorem State.answer_lastValidTs (r : Result) (s : State) : (s.answer r).lastValidTs = s.lastValidTs := rfl
@[simp] theorem State.answer_ls (r : Result) (s : State) : (s.answer r).ls = s.ls := rfl
@[simp] theorem State.answer_pending (r : Result) (s : State) : (s.answer r).pending = s.pending := rfl
@[simp] theorem State.answer_outbound (r : Result) (s : State) : (s.answer r).outbound = s.outbound := rfl
@[simp] theorem State.answer_out (r : Result) (s : State) : (s.answer r).out = { s.out with result := r } := rfl

/-! ## State.transmit -/

@[simp] theorem State.transmit_cfg (bs : List Byte) (s : State) : (s.transmit bs).cfg = s.cfg := rfl
@[simp] theorem State.transmit_ch (bs : List Byte) (s : State) : (s.transmit bs).ch = s.ch := rfl
@[simp] theorem State.transmit_rxState (bs : List Byte) (s : State) : (s.transmit bs).rxState = s.rxState := rfl
@[simp] theorem State.transmit_rxAddr (bs : List Byte) (s : State) : (s.transmit bs).rxAddr = s.rxAddr := rfl
@[simp] theorem State.transmit_rxLen (bs : List Byte) (s : State) : (s.transmit bs).rxLen = s.rxLen := rfl
@[simp] theorem State.transmit_rxType (bs : List Byte) (s : State) : (s.transmit bs).rxType = s.rxType := rfl
@[simp] theorem State.transmit_rxIdx (bs : List Byte) (s : State) : (s.transmit bs).rxIdx = s.rxIdx := rfl
@[simp] theorem State.transmit_rxCrc (bs : List Byte) (s : State) : (s.transmit bs).rxCrc = s.rxCrc := rfl
@[simp] theorem State.transmit_rxBuf (bs : List Byte) (s : State) : (s.transmit bs).rxBuf = s.rxBuf := rfl
@[simp] theorem State.transmit_linkUp (bs : List Byte) (s : State) : (s.transmit bs).linkUp = s.linkUp := rfl
@[simp] theorem State.transmit_lastValidTs (bs : List Byte) (s : State) : (s.transmit bs).lastValidTs = s.lastValidTs := rfl
@[simp] theorem State.transmit_ls (bs : List Byte) (s : State) : (s.transmit bs).ls = s.ls := rfl
@[simp] theorem State.transmit_pending (bs : List Byte) (s : State) : (s.transmit bs).pending = s.pending := rfl
@[simp] theorem State.transmit_outbound (bs : List Byte) (s : State) : (s.transmit bs).outbound = s.outbound ++ bs := rfl
@[simp] theorem State.transmit_out (bs : List Byte) (s : State) : (s.transmit bs).out = { s.out with tx := s.out.tx ++ bs } := rfl

/-! ## State.publish -/

@[simp] theorem State.publish_cfg (o : MixOutput) (s : State) : (s.publish o).cfg = s.cfg := rfl
@[simp] theorem State.publish_ch (o : MixOutput) (s : State) : (s.publish o).ch = s.ch := rfl
@[simp] theorem State.publish_rxState (o : MixOutput) (s : State) : (s.publish o).rxState = s.rxState := rfl
@[simp] theorem State.publish_rxAddr (o : MixOutput) (s : State) : (s.publish o).rxAddr = s.rxAddr := rfl
@[simp] theorem State.publish_rxLen (o : MixOutput) (s : State) : (s.publish o).rxLen = s.rxLen := rfl
@[simp] theorem State.publish_rxType (o : MixOutput) (s : State) : (s.publish o).rxType = s.rxType := rfl
@[simp] theorem State.publish_rxIdx (o : MixOutput) (s : State) : (s.publish o).rxIdx = s.rxIdx := rfl
@[simp] theorem State.publish_rxCrc (o : MixOutput) (s : State) : (s.publish o).rxCrc = s.rxCrc := rfl
@[simp] theorem State.publish_rxBuf (o : MixOutput) (s : State) : (s.publish o).rxBuf = s.rxBuf := rfl
@[simp] theorem State.publish_linkUp (o : MixOutput) (s : State) : (s.publish o).linkUp = s.linkUp := rfl
@[simp] theorem State.publish_lastValidTs (o : MixOutput) (s : State) : (s.publish o).lastValidTs = s.lastValidTs := rfl
@[simp] theorem State.publish_ls (o : MixOutput) (s : State) : (s.publish o).ls = s.ls := rfl
@[simp] theorem State.publish_pending (o : MixOutput) (s : State) : (s.publish o).pending = s.pending := rfl
@[simp] theorem State.publish_outbound (o : MixOutput) (s : State) : (s.publish o).outbound = s.outbound := rfl
@[simp] theorem State.publish_out (o : MixOutput) (s : State) : (s.publish o).out = { s.out with mix := some o } := rfl

/-! ## State.rxAddrByte -/

@[simp] theorem State.rxAddrByte_cfg (b : Byte) (s : State) : (s.rxAddrByte b).cfg = s.cfg := rfl
@[simp] theorem State.rxAddrByte_ch (b : Byte) (s : State) : (s.rxAddrByte b).ch = s.ch := rfl
@[simp] theorem State.rxAddrByte_rxState (b : Byte) (s : State) : (s.rxAddrByte b).rxState = .len := rfl
@[simp] theorem State.rxAddrByte_rxAddr (b : Byte) (s : State) : (s.rxAddrByte b).rxAddr = b := rfl
@[simp] theorem State.rxAddrByte_rxLen (b : Byte) (s : State) : (s.rxAddrByte b).rxLen = s.rxLen := rfl
@[simp] theorem State.rxAddrByte_rxType (b : Byte) (s : State) : (s.rxAddrByte b).rxType = s.rxType := rfl
@[simp] theorem State.rxAddrByte_rxIdx (b : Byte) (s : State) : (s.rxAddrByte b).rxIdx = s.rxIdx := rfl
@[simp] theorem State.rxAddrByte_rxCrc (b : Byte) (s : State) : (s.rxAddrByte b).rxCrc = s.rxCrc := rfl
@[simp] theorem State.rxAddrByte_rxBuf (b : Byte) (s : State) : (s.rxAddrByte b).rxBuf = s.rxBuf := rfl
@[simp] theorem State.rxAddrByte_linkUp (b : Byte) (s : State) : (s.rxAddrByte b).linkUp = s.linkUp := rfl
@[simp] theorem State.rxAddrByte_lastValidTs (b : Byte) (s : State) : (s.rxAddrByte b).lastValidTs = s.lastValidTs := rfl
@[simp] theorem State.rxAddrByte_ls (b : Byte) (s : State) : (s.rxAddrByte b).ls = s.ls := rfl
@[simp] theorem State.rxAddrByte_pending (b : Byte) (s : State) : (s.rxAddrByte b).pending = s.pending := rfl
@[simp] theorem State.rxAddrByte_outbound (b : Byte) (s : State) : (s.rxAddrByte b).outbound = s.outbound := rfl
@[simp] theorem State.rxAddrByte_out (b : Byte) (s : State) : (s.rxAddrByte b).out = s.out := rfl

/-! ## State.rxTypeByte -/

@[simp] theorem State.rxTypeByte_cfg (b : Byte) (s : State) : (s.rxTypeByte b).cfg = s.cfg := rfl
@[simp] theorem State.rxTypeByte_ch (b : Byte) (s : State) : (s.rxTypeByte b).ch = s.ch := rfl
@[simp] theorem State.rxTypeByte_rxState (b : Byte) (s : State) : (s.rxTypeByte b).rxState = if s.rxLen = 2 then .crc else .payload := rfl
@[simp] theorem State.rxTypeByte_rxAddr (b : Byte) (s : State) : (s.rxTypeByte b).rxAddr = s.rxAddr := rfl
@[simp] theorem State.rxTypeByte_rxLen (b : Byte) (s : State) : (s.rxTypeByte b).rxLen = s.rxLen := rfl
@[simp] theorem State.rxTypeByte_rxType (b : Byte) (s : State) : (s.rxTypeByte b).rxType = b := rfl
@[simp] theorem State.rxTypeByte_rxIdx (b : Byte) (s : State) : (s.rxTypeByte b).rxIdx = 0 := rfl
@[simp] theorem State.rxTypeByte_rxCrc (b : Byte) (s : State) : (s.rxTypeByte b).rxCrc = crc8Byte s.cfg s.cfg.crcInit b := rfl
@[simp] theorem State.rxTypeByte_rxBuf (b : Byte) (s : State) : (s.rxTypeByte b).rxBuf = s.rxBuf := rfl
@[simp] theorem State.rxTypeByte_linkUp (b : Byte) (s : State) : (s.rxTypeByte b).linkUp = s.linkUp := rfl
@[simp] theorem State.rxTypeByte_lastValidTs (b : Byte) (s : State) : (s.rxTypeByte b).lastValidTs = s.lastValidTs := rfl
@[simp] theorem State.rxTypeByte_ls (b : Byte) (s : State) : (s.rxTypeByte b).ls = s.ls := rfl
@[simp] theorem State.rxTypeByte_pending (b : Byte) (s : State) : (s.rxTypeByte b).pending = s.pending := rfl
@[simp] theorem State.rxTypeByte_outbound (b : Byte) (s : State) : (s.rxTypeByte b).outbound = s.outbound := rfl
@[simp] theorem State.rxTypeByte_out (b : Byte) (s : State) : (s.rxTypeByte b).out = s.out := rfl

/-! ## State.frameLs -/

@[simp] theorem State.frameLs_cfg (payload : List Byte) (s : State) : (s.frameLs payload).cfg = s.cfg := rfl
@[simp] theorem State.frameLs_ch (payload : List Byte) (s : State) : (s.frameLs payload).ch = s.ch := rfl
@[simp] theorem State.frameLs_rxState (payload : List Byte) (s : State) : (s.frameLs payload).rxState = s.rxState := rfl
@[simp] theorem State.frameLs_rxAddr (payload : List Byte) (s : State) : (s.frameLs payload).rxAddr = s.rxAddr := rfl
@[simp] theorem State.frameLs_rxLen (payload : List Byte) (s : State) : (s.frameLs payload).rxLen = s.rxLen := rfl
@[simp] theorem State.frameLs_rxType (payload : List Byte) (s : State) : (s.frameLs payload).rxType = s.rxType := rfl
@[simp] theorem State.frameLs_rxIdx (payload : List Byte) (s : State) : (s.frameLs payload).rxIdx = s.rxIdx := rfl
@[simp] theorem State.frameLs_rxCrc (payload : List Byte) (s : State) : (s.frameLs payload).rxCrc = s.rxCrc := rfl
@[simp] theorem State.frameLs_rxBuf (payload : List Byte) (s : State) : (s.frameLs payload).rxBuf = s.rxBuf := rfl
@[simp] theorem State.frameLs_linkUp (payload : List Byte) (s : State) : (s.frameLs payload).linkUp = s.linkUp := rfl
@[simp] theorem State.frameLs_lastValidTs (payload : List Byte) (s : State) : (s.frameLs payload).lastValidTs = s.lastValidTs := rfl
@[simp] theorem State.frameLs_ls (payload : List Byte) (s : State) : (s.frameLs payload).ls = unpackLs s.cfg payload := rfl
@[simp] theorem State.frameLs_pending (payload : List Byte) (s : State) : (s.frameLs payload).pending = s.pending := rfl
@[simp] theorem State.frameLs_outbound (payload : List Byte) (s : State) : (s.frameLs payload).outbound = s.outbound := rfl
@[simp] theorem State.frameLs_out (payload : List Byte) (s : State) : (s.frameLs payload).out = s.out := rfl

/-! ## State.resetBlock -/

@[simp] theorem State.resetBlock_cfg (s : State) : (s.resetBlock).cfg = s.cfg := rfl
@[simp] theorem State.resetBlock_ch (s : State) : (s.resetBlock).ch = List.replicate s.cfg.nCh (s.cfg.toCh s.cfg.chCenter) := rfl
@[simp] theorem State.resetBlock_rxState (s : State) : (s.resetBlock).rxState = .addr := rfl
@[simp] theorem State.resetBlock_rxAddr (s : State) : (s.resetBlock).rxAddr = 0 := rfl
@[simp] theorem State.resetBlock_rxLen (s : State) : (s.resetBlock).rxLen = 0 := rfl
@[simp] theorem State.resetBlock_rxType (s : State) : (s.resetBlock).rxType = 0 := rfl
@[simp] theorem State.resetBlock_rxIdx (s : State) : (s.resetBlock).rxIdx = 0 := rfl
@[simp] theorem State.resetBlock_rxCrc (s : State) : (s.resetBlock).rxCrc = 0 := rfl
@[simp] theorem State.resetBlock_rxBuf (s : State) : (s.resetBlock).rxBuf = [] := rfl
@[simp] theorem State.resetBlock_linkUp (s : State) : (s.resetBlock).linkUp = false := rfl
@[simp] theorem State.resetBlock_lastValidTs (s : State) : (s.resetBlock).lastValidTs = 0 := rfl
@[simp] theorem State.resetBlock_ls (s : State) : (s.resetBlock).ls = {} := rfl
@[simp] theorem State.resetBlock_pending (s : State) : (s.resetBlock).pending = s.pending := rfl
@[simp] theorem State.resetBlock_outbound (s : State) : (s.resetBlock).outbound = s.outbound := rfl
@[simp] theorem State.resetBlock_out (s : State) : (s.resetBlock).out = {} := rfl

end Sys2Proof.Machine
end

