-- ==== Sys2Proof/Laws/Ops.lean ====
section
/-!
SUPPORT. For each shared operation, one lemma that says everything it can do. Later proofs cite these and do not
unfold the operations.
-/

namespace Sys2Proof.Machine

/-! ## The receive buffer -/

theorem State.bufStore_ok {a : Nat} {b : Byte} {s t : State} (h : s.bufStore a b = .ok t) :
    a < s.cfg.maxPayload ∧ t = { s with rxBuf := s.rxBuf.write a b } := by
  unfold State.bufStore at h
  split at h
  · exact ⟨‹_›, by cases h; rfl⟩
  · cases h

theorem State.bufStore_of_lt {a : Nat} {s : State} (b : Byte) (h : a < s.cfg.maxPayload) :
    s.bufStore a b = .ok { s with rxBuf := s.rxBuf.write a b } := if_pos h

theorem State.bufLoad_ok {n : Nat} {s : State} {p : List Byte} (h : s.bufLoad n = .ok p) :
    n ≤ s.cfg.maxPayload ∧ p = (List.range n).map s.rxBuf.read := by
  unfold State.bufLoad at h
  split at h
  · exact ⟨‹_›, by cases h; rfl⟩
  · cases h

theorem State.bufLoad_of_le {n : Nat} {s : State} (h : n ≤ s.cfg.maxPayload) :
    s.bufLoad n = .ok ((List.range n).map s.rxBuf.read) := if_pos h

/-! ## The Channel Store -/

theorem Config.chanIndex_iff {c : Config} {i : Nat} : c.chanIndex i = true ↔ 1 ≤ i ∧ i ≤ c.nCh := by
  simp [Config.chanIndex]

theorem State.chRead_out {s : State} {i : Nat} (h : s.cfg.chanIndex i = false) : s.chRead i = none := by
  simp [State.chRead, h]

theorem State.chRead_in {s : State} {i : Nat} (h : s.cfg.chanIndex i = true) (hl : s.ch.length = s.cfg.nCh) :
    ∃ v, s.chRead i = some v := by
  have := Config.chanIndex_iff.1 h
  refine ⟨s.ch[i - 1]'(by omega), ?_⟩
  simp [State.chRead, h]

/-- `chRead` sees the configuration and the store only. -/
theorem State.chRead_congr {s t : State} (hc : t.cfg = s.cfg) (hch : t.ch = s.ch) (i : Nat) :
    t.chRead i = s.chRead i := by
  simp [State.chRead, hc, hch]

/-- Everything a channel write does: it sets one entry of the store, inside `1 .. N_CH` only. -/
theorem State.chWrite_eq (i : Nat) (v : Int) (s : State) :
    s.chWrite i v =
      { s with ch := if s.cfg.chanIndex i then s.ch.set (i - 1) (s.cfg.toCh v) else s.ch } := by
  unfold State.chWrite
  split <;> simp_all

@[simp] theorem State.chWrite_cfg (i : Nat) (v : Int) (s : State) : (s.chWrite i v).cfg = s.cfg := by
  rw [State.chWrite_eq]

@[simp] theorem State.chWrite_length (i : Nat) (v : Int) (s : State) : (s.chWrite i v).ch.length = s.ch.length := by
  rw [State.chWrite_eq]
  simp only
  split <;> simp

theorem State.chRead_chWrite_same {s : State} {i : Nat} (v : Int) (h : s.cfg.chanIndex i = true)
    (hl : s.ch.length = s.cfg.nCh) : (s.chWrite i v).chRead i = some (s.cfg.toCh v) := by
  have hi := Config.chanIndex_iff.1 h
  rw [State.chWrite_eq]
  simp only [State.chRead, h, if_true]
  rw [List.getElem?_set_self (by omega)]

theorem State.chRead_chWrite_other {s : State} {i j : Nat} (v : Int) (h : j ≠ i) :
    (s.chWrite i v).chRead j = s.chRead j := by
  rw [State.chWrite_eq]
  simp only [State.chRead]
  split
  · rename_i hj
    split
    · rename_i hi
      have hj := Config.chanIndex_iff.1 hj
      have hi := Config.chanIndex_iff.1 hi
      rw [List.getElem?_set_ne (by omega)]
    · rfl
  · rfl

/-! ## Errors -/

/-- A FramingError puts the parser in `S_ADDR` and writes nothing else of the block (R181). -/
theorem State.raiseError_framing {e : Raised} (s : State) (h : e.errorClass = .framingError) :
    s.raiseError e = { s with rxState := .addr, out := { s.out with errors := s.out.errors ++ [e] } } := by
  simp [State.raiseError, State.enterError, h]

/-- An UnsupportedFrameType writes nothing of the block (R182). -/
theorem State.raiseError_unsupported {e : Raised} (s : State) (h : e.errorClass = .unsupportedFrameType) :
    s.raiseError e = { s with out := { s.out with errors := s.out.errors ++ [e] } } := by
  simp [State.raiseError, State.enterError, h]

/-- An InvalidPayloadSize is the operation's result (R184). -/
theorem State.raiseError_encodeSize (s : State) :
    s.raiseError .encodeSize =
      { s with out := { s.out with errors := s.out.errors ++ [.encodeSize], result := .invalidPayloadSize } } := rfl

/-! ## The link flag -/

/-- Everything raising the link does (R131). -/
theorem State.raiseLink_eq (s : State) :
    s.raiseLink = { s with
      linkUp := true
      out := { s.out with events := s.out.events ++ if s.linkUp then [] else [.linkUp] } } := by
  unfold State.raiseLink
  split
  · rename_i h
    cases s
    simp_all
  · simp_all [State.emit]

/-- Everything the timeout step does (R136). -/
theorem State.linkTimeout_eq (now : Time) (s : State) :
    s.linkTimeout now = { s with
      linkUp := s.linkUp && !timedOut s.cfg now s.lastValidTs
      out := { s.out with
        events := s.out.events ++ if s.linkUp && timedOut s.cfg now s.lastValidTs then [.linkDown] else [] } } := by
  unfold State.linkTimeout
  split
  · simp_all [State.emit]
  · rename_i h
    cases s
    rename_i c ch r1 r2 r3 r4 r5 r6 r7 up ts ls p ob o
    cases hu : up <;> cases ht : timedOut c now ts <;> simp_all

theorem timedOut_iff {c : Config} {now ts : Time} : timedOut c now ts = true ↔ c.tFs1 < elapsed c now ts :=
  decide_eq_true_iff

/-! ## Frame dispatch -/

/-- The frame is an RC frame of the right size (R130's first test). -/
def rcHit (c : Config) (f : Frame) : Bool := decide (f.type = c.typeRc ∧ f.len.toNat - 2 = c.rcPayload)

/-- The frame is a link-statistics frame of the right size (R130's second test). -/
def lsHit (c : Config) (f : Frame) : Bool :=
  !rcHit c f && decide (f.type = c.typeLs ∧ f.len.toNat - 2 = c.lsPayload)

/-- The error a dispatched frame raises (R133 to R135). -/
def frameErrors (c : Config) (f : Frame) : List Raised :=
  if rcHit c f || lsHit c f || decide (f.type = c.typeBt ∧ f.len.toNat - 2 = c.btPayload) then []
  else if f.type = c.typeRc ∨ f.type = c.typeLs ∨ f.type = c.typeBt then [.wrongSize] else [.unknownType]

/-- Everything dispatching a frame does (R130 to R135, the table of R138). -/
theorem State.frameIn_eq (f : Frame) (now : Time) (s : State) :
    s.frameIn f now = { s with
      lastValidTs := now
      ch := if rcHit s.cfg f then unpackRc s.cfg f.payload else s.ch
      ls := if lsHit s.cfg f then unpackLs s.cfg f.payload else s.ls
      linkUp := s.linkUp || rcHit s.cfg f
      out := { s.out with
        events := s.out.events ++
          if rcHit s.cfg f then (if s.linkUp then [.channels] else [.linkUp, .channels]) else []
        errors := s.out.errors ++ frameErrors s.cfg f } } := by
  unfold State.frameIn
  simp only
  split
  · rename_i h
    have hr : rcHit s.cfg f = true := by simp [rcHit, h]
    rw [State.frameRc, State.raiseLink_eq]
    simp only [State.emit, hr, if_true, lsHit, Bool.not_true, Bool.false_and, frameErrors, Bool.true_or,
      List.append_nil, Bool.or_true, Bool.false_eq_true, if_false]
    cases s.linkUp <;> simp
  · rename_i h
    have hr : rcHit s.cfg f = false := by simp [rcHit, h]
    split
    · rename_i h2
      have hl : lsHit s.cfg f = true := by simp [lsHit, hr, h2]
      simp [State.frameLs, hr, hl, frameErrors]
    · rename_i h2
      have hl : lsHit s.cfg f = false := by simp [lsHit, hr, h2]
      split
      · rename_i h3
        simp [hr, hl, frameErrors, h3]
      · rename_i h3
        split
        · rename_i h4
          rw [State.raiseError_unsupported _ rfl]
          simp [hr, hl, frameErrors, h3, h4]
        · rename_i h4
          rw [State.raiseError_unsupported _ rfl]
          simp [hr, hl, frameErrors, h3, h4]

/-! ## The serializer -/

/-- The three pairs of TYPE_TABLE are encoded; every other pair is not (R101, R102). -/
theorem encodeFrame_eq (c : Config) (t : Byte) (p : List Byte) :
    encodeFrame c t p =
      if (t, p.length) ∈ c.typeTable then
        some (c.txAddr :: lenByte p.length :: t :: (p ++ [crc8 c (t :: p)]))
      else none := rfl

/-- A meaning that met no fault. -/
theorem conclude_next {r : Except Fault State} {t : State} (h : conclude r = .next t) : r = .ok t := by
  cases r with
  | ok s =>
    cases h
    rfl
  | error f => cases h

/-- Everything sending a frame does (R110, R113): it writes the outbound stream and the outputs only. -/
theorem State.sendFrame_eq (t : Byte) (p : List Byte) (s : State) :
    (s.sendFrame t p) = { s with
      outbound := (s.sendFrame t p).outbound
      out := (s.sendFrame t p).out } ∧ (s.sendFrame t p).out.events = s.out.events ∧
      (s.sendFrame t p).out.mix = s.out.mix := by
  unfold State.sendFrame
  split <;> exact ⟨rfl, rfl, rfl⟩

theorem packRc_length (c : Config) (chs : List Int) : (packRc c chs).length = c.rcPayload := by
  simp [packRc, packWire]

theorem unpackRc_length (c : Config) (p : List Byte) : (unpackRc c p).length = c.nCh := by
  simp [unpackRc, wireFields]

theorem packBt_length (c : Config) (mv ma mah : Nat) (pct : Byte) : (packBt c mv ma mah pct).length = c.btPayload := by
  simp [packBt]

end Sys2Proof.Machine
end

