-- ==== Sys2Proof/Laws/Decode.lean ====
section
/-!
SUPPORT. The decoder: every lane reads back what the encoder puts on it, one equation per selector, and what a whole
frame at the front of the inbound bytes decodes to.
-/

namespace Sys2Proof

open Sys2Proof.Machine

/-! ## Lanes -/

theorem laneByte_toNat (b : Byte) : laneByte (b.toNat : Int) = .ok b := by
  unfold laneByte
  rw [if_pos (by have := b.isLt; omega)]
  simp

theorem laneTime_natCast {c : Config} {t : Time} (h : c.fitsTime t = true) : laneTime c (t : Int) = .ok t := by
  unfold laneTime
  rw [if_pos ⟨by omega, by simpa using h⟩]
  simp

theorem laneHalf_toInt (h : Half) : laneHalf h.toInt = .ok h := by
  unfold laneHalf
  rw [if_pos (by have := BitVec.toInt_lt (x := h); have := BitVec.le_toInt (x := h); omega)]
  simp

theorem laneNat_natCast (n : Nat) : laneNat (n : Int) = .ok n := by
  unfold laneNat
  rw [if_pos (by omega)]
  simp

theorem laneBit_ite (b : Bool) : laneBit (if b then 1 else 0) = .ok b := by
  cases b <;> rfl

theorem laneByte_ok {x : Int} {b : Byte} (h : laneByte x = .ok b) : x = b.toNat := by
  unfold laneByte at h
  split at h
  · cases h
    rw [BitVec.toNat_ofNat]
    omega
  · cases h

theorem laneTime_ok {c : Config} {x : Int} {t : Time} (h : laneTime c x = .ok t) : x = t ∧ c.fitsTime t = true := by
  unfold laneTime at h
  split at h
  · rename_i hx
    cases h
    exact ⟨by omega, hx.2⟩
  · cases h

theorem laneHalf_ok {x : Int} {v : Half} (h : laneHalf x = .ok v) : x = v.toInt := by
  unfold laneHalf at h
  split at h
  · cases h
    rw [BitVec.toInt_ofInt, Int.bmod_eq_of_le] <;> omega
  · cases h

theorem laneNat_ok {x : Int} {n : Nat} (h : laneNat x = .ok n) : x = n := by
  unfold laneNat at h
  split at h
  · cases h
    omega
  · cases h

theorem laneBit_ok {x : Int} {b : Bool} (h : laneBit x = .ok b) : x = if b then 1 else 0 := by
  unfold laneBit at h
  split at h
  · cases h
    assumption
  · split at h
    · cases h
      assumption
    · cases h

theorem takeBytes_append (bs : List Byte) (rest : List Int) :
    takeBytes bs.length (bs.map (fun b => (b.toNat : Int)) ++ rest) = .ok (bs, rest) := by
  induction bs with
  | nil => cases rest <;> rfl
  | cons b bs ih => simp only [List.length_cons, List.map_cons, List.cons_append, takeBytes, laneByte_toNat, ih]

theorem takeSequence_append (bs : List Byte) (rest : List Int) :
    takeSequence (sequenceLanes bs ++ rest) = .ok (bs, rest) := by
  simp only [sequenceLanes, List.cons_append, takeSequence, laneNat_natCast, takeBytes_append]

theorem takeSequence_lanes (bs : List Byte) : takeSequence (sequenceLanes bs) = .ok (bs, []) := by
  have := takeSequence_append bs []
  rwa [List.append_nil] at this

theorem takeBytes_ok {n : Nat} {xs rest : List Int} {bs : List Byte} (h : takeBytes n xs = .ok (bs, rest)) :
    bs.length = n ∧ xs = bs.map (fun b => (b.toNat : Int)) ++ rest := by
  induction n generalizing xs bs with
  | zero =>
    cases xs <;> cases h <;> exact ⟨rfl, rfl⟩
  | succ n ih =>
    cases xs with
    | nil => cases h
    | cons x xs =>
      unfold takeBytes at h
      cases hb : laneByte x with
      | error e => simp [hb] at h
      | ok b =>
        cases ht : takeBytes n xs with
        | error e => simp [hb, ht] at h
        | ok p =>
          obtain ⟨bs', rest'⟩ := p
          simp only [hb, ht, Except.ok.injEq, Prod.mk.injEq] at h
          obtain ⟨rfl, rfl⟩ := h
          obtain ⟨h1, h2⟩ := ih ht
          exact ⟨by rw [List.length_cons, h1], by rw [h2, laneByte_ok hb]; rfl⟩

theorem takeSequence_ok {xs rest : List Int} {bs : List Byte} (h : takeSequence xs = .ok (bs, rest)) :
    xs = sequenceLanes bs ++ rest := by
  cases xs with
  | nil => cases h
  | cons x xs =>
    unfold takeSequence at h
    cases hn : laneNat x with
    | error e => simp [hn] at h
    | ok n =>
      simp only [hn] at h
      obtain ⟨h1, h2⟩ := takeBytes_ok h
      rw [laneNat_ok hn, ← h1, h2]
      rfl

theorem laneSample_lanes {c : Config} {o : Option Half} (h : axisLegal c o = true) :
    ∃ a x, sampleLanes o = [a, x] ∧ laneSample c a x = .ok o := by
  cases o with
  | none => exact ⟨0, 0, rfl, rfl⟩
  | some v =>
    refine ⟨1, v.toInt, rfl, ?_⟩
    unfold laneSample
    rw [show laneBit 1 = .ok true from rfl]
    simp only [laneHalf_toInt, h, if_true]

theorem laneSample_ok {c : Config} {a x : Int} {o : Option Half} (h : laneSample c a x = .ok o) :
    sampleLanes o = [a, x] ∧ axisLegal c o = true := by
  unfold laneSample at h
  cases hb : laneBit a with
  | error e => simp [hb] at h
  | ok b =>
    have ha := laneBit_ok hb
    cases b with
    | false =>
      simp only [hb] at h
      split at h
      · rename_i h0
        cases h
        exact ⟨by rw [ha, h0]; rfl, rfl⟩
      · cases h
    | true =>
      cases hv : laneHalf x with
      | error e => simp [hb, hv] at h
      | ok v =>
        simp only [hb, hv] at h
        split at h
        · rename_i hl
          cases h
          exact ⟨by rw [ha, laneHalf_ok hv]; rfl, hl⟩
        · cases h

theorem takeSamples_lanes {c : Config} {os : List (Option Half)} (h : os.all (axisLegal c) = true) :
    takeSamples c os.length (os.flatMap sampleLanes) = .ok os := by
  induction os with
  | nil => rfl
  | cons o os ih =>
    simp only [List.all_cons, Bool.and_eq_true] at h
    obtain ⟨a, x, h1, h2⟩ := laneSample_lanes h.1
    simp only [List.flatMap_cons, h1, List.length_cons, List.cons_append, List.nil_append, takeSamples, h2, ih h.2]

theorem takeSamples_ok {c : Config} {n : Nat} {xs : List Int} {os : List (Option Half)}
    (h : takeSamples c n xs = .ok os) :
    os.length = n ∧ os.all (axisLegal c) = true ∧ xs = os.flatMap sampleLanes := by
  induction n generalizing xs os with
  | zero =>
    cases xs with
    | nil => cases h; exact ⟨rfl, rfl, rfl⟩
    | cons => cases h
  | succ n ih =>
    match xs with
    | [] => cases h
    | [_] => cases h
    | a :: x :: xs =>
      unfold takeSamples at h
      cases ho : laneSample c a x with
      | error e => simp [ho] at h
      | ok o =>
        cases ht : takeSamples c n xs with
        | error e => simp [ho, ht] at h
        | ok os' =>
          simp only [ho, ht, Except.ok.injEq] at h
          subst h
          obtain ⟨h1, h2, h3⟩ := ih ht
          obtain ⟨h4, h5⟩ := laneSample_ok ho
          exact ⟨by rw [List.length_cons, h1], by rw [List.all_cons, h5, h2]; rfl,
            by rw [List.flatMap_cons, h4, h3]; rfl⟩

theorem lanesRxTick_lanes {c : Config} (bs : List Byte) {now : Time} (h : c.fitsTime now = true) :
    lanesRxTick c (sequenceLanes bs ++ [(now : Int)]) = .ok (.rxTick bs now) := by
  unfold lanesRxTick
  rw [takeSequence_append]
  simp only [laneTime_natCast h]

/-! ## Selectors (R75, R76) -/

theorem decodePort_rxByte (c : Config) (xs : List Int) : decodePort c 0x1 xs = lanesRxByte c xs := rfl
theorem decodePort_rxTick (c : Config) (xs : List Int) : decodePort c 0x2 xs = lanesRxTick c xs := rfl
theorem decodePort_ctrlTick (c : Config) (xs : List Int) : decodePort c 0x3 xs = lanesCtrlTick c xs := rfl
theorem decodePort_setChannel (c : Config) (xs : List Int) : decodePort c 0x4 xs = lanesSetChannel xs := rfl
theorem decodePort_getChannel (c : Config) (xs : List Int) : decodePort c 0x5 xs = lanesGetChannel xs := rfl
theorem decodePort_sendChannels (c : Config) (xs : List Int) : decodePort c 0x6 xs = noLanes .sendChannels xs := rfl
theorem decodePort_encode (c : Config) (xs : List Int) : decodePort c 0x7 xs = lanesEncode xs := rfl
theorem decodePort_sendBattery (c : Config) (xs : List Int) : decodePort c 0x8 xs = lanesSendBattery xs := rfl
theorem decodePort_isLinkUp (c : Config) (xs : List Int) : decodePort c 0x9 xs = noLanes .isLinkUp xs := rfl
theorem decodePort_getLinkStats (c : Config) (xs : List Int) : decodePort c 0xA xs = noLanes .getLinkStats xs := rfl
theorem decodePort_reset (c : Config) (xs : List Int) : decodePort c 0xF xs = noLanes .reset xs := rfl

/-! ## Frames -/

theorem lenByte_toNat {n : Nat} (h : n ≤ 253) : (lenByte n).toNat = n + 2 := by
  simp [lenByte]
  omega

theorem lenByte_of_toNat {len : Byte} {n : Nat} (h : len.toNat = n + 2) : lenByte n = len := by
  unfold lenByte
  rw [← h]
  simp

/-- A whole frame with nothing behind it decodes to one frame instruction and nothing remains. -/
theorem decodeWire_frameBytes {c : Config} {len : Byte} {p : List Byte} (a t ck : Byte) (now : Time)
    (hl : lenLegal c len = true) (hp : p.length + 2 = len.toNat) :
    decodeWire c (frameBytes a len t p ck) now = (classifyFrame c a len t (p ++ [ck]) now, []) := by
  simp only [decodeWire, frameBytes, hl, if_true]
  have e : (t :: (p ++ [ck])).length = len.toNat := by
    simp only [List.length_cons, List.length_append, List.length_nil]
    omega
  rw [← e, List.take_length]
  simp only
  rw [if_neg (by omega), List.drop_length]

end Sys2Proof
end

