-- ==== Sys2Proof/Laws/Layout.lean ====
section
/-!
SUPPORT. The packers and unpackers, bit by bit and byte by byte (30_encoding.md R64 to R66, 40_frame_codec.md R104,
R105, R109): where the layout of the configuration puts each bit of a wire field and each byte of a battery field.
-/

namespace Sys2Proof.Machine

/-! ## Numbers from bits and bytes -/

theorem testBit_bitsNat (n : Nat) (f : Nat → Bool) (j : Nat) : (bitsNat n f).testBit j = (decide (j < n) && f j) := by
  induction n generalizing f j with
  | zero => simp [bitsNat]
  | succ n ih =>
    have e : bitsNat (n + 1) f = 2 * (bitsNat n fun i => f (i + 1)) + (f 0).toNat := by
      rw [bitsNat, Nat.add_comm]
    rw [e]
    cases j with
    | zero => cases f 0 <;> simp [Nat.testBit_zero]
    | succ j =>
      rw [Nat.testBit_succ, show (2 * (bitsNat n fun i => f (i + 1)) + (f 0).toNat) / 2 = bitsNat n fun i => f (i + 1)
        by cases f 0 <;> simp only [Bool.toNat_true, Bool.toNat_false] <;> omega, ih]
      simp

theorem bitsNat_lt (n : Nat) (f : Nat → Bool) : bitsNat n f < 2 ^ n := by
  induction n generalizing f with
  | zero => simp [bitsNat]
  | succ n ih =>
    have := ih fun j => f (j + 1)
    rw [bitsNat, pow_succ]
    cases f 0 <;> simp only [Bool.toNat_true, Bool.toNat_false] <;> omega

theorem byteOf_getLsbD (v k : Nat) {b : Nat} (hb : b < 8) : (byteOf v k).getLsbD b = v.testBit (8 * k + b) := by
  rw [byteOf, BitVec.getLsbD_ofNat, Nat.testBit_div_two_pow, decide_eq_true hb, Bool.true_and, Nat.add_comm]

/-- Bit `p` of the little-endian integer of a payload is bit `p` of the payload (R64's "equivalently"). -/
theorem testBit_leNat (payload : List Byte) (p : Nat) : (leNat payload).testBit p = payloadBit payload p := by
  induction payload generalizing p with
  | nil => simp [leNat, payloadBit]
  | cons b bs ih =>
    have hb := b.isLt
    have e : leNat (b :: bs) = 2 ^ 8 * leNat bs + b.toNat := by
      simp only [leNat]
      omega
    rw [e, Nat.testBit_two_pow_mul_add _ hb]
    split
    · rename_i hp
      rw [payloadBit, Nat.div_eq_of_lt hp, Nat.mod_eq_of_lt hp]
      rfl
    · rename_i hp
      rw [ih, payloadBit, payloadBit, show p / 8 = (p - 8) / 8 + 1 by omega, show p % 8 = (p - 8) % 8 by omega]
      rfl

/-- Bit `bits * k + j` of R64's `P` is bit `j` of wire value `k`, for wire values of `bits` bits. -/
theorem testBit_packFields {bits : Nat} {ws : List Nat} (hw : ∀ w ∈ ws, w < 2 ^ bits) (k : Nat) {j : Nat}
    (hj : j < bits) : (packFields bits ws).testBit (bits * k + j) = (ws.getD k 0).testBit j := by
  induction ws generalizing k with
  | nil => simp [packFields]
  | cons w ws ih =>
    have h0 : w < 2 ^ bits := hw w (List.mem_cons_self ..)
    have e : packFields bits (w :: ws) = 2 ^ bits * packFields bits ws + w := Nat.add_comm _ _
    rw [e, Nat.testBit_two_pow_mul_add _ h0]
    cases k with
    | zero => simp [hj]
    | succ k =>
      rw [if_neg (by rw [Nat.mul_succ]; omega), show bits * (k + 1) + j - bits = bits * k + j by
        rw [Nat.mul_succ]; omega, ih fun w h => hw w (List.mem_cons_of_mem _ h)]
      rfl

theorem byteOf_beBytes {n v k : Nat} (h : k < n) : (beBytes n v).getD k 0 = byteOf v (n - 1 - k) := by
  simp [beBytes, h]

theorem beBytes_length (n v : Nat) : (beBytes n v).length = n := by simp [beBytes]

theorem beNat_append_one (bs : List Byte) (b : Byte) : beNat (bs ++ [b]) = beNat bs * 256 + b.toNat := by
  simp [beNat]

/-- Big-endian bytes read back (R45). -/
theorem beNat_beBytes (n v : Nat) : beNat (beBytes n v) = v % 2 ^ (8 * n) := by
  induction n generalizing v with
  | zero => simp [beBytes, beNat, Nat.mod_one]
  | succ n ih =>
    have e : beBytes (n + 1) v = beBytes n (v / 256) ++ [byteOf v 0] := by
      simp only [beBytes, List.range_succ, List.map_append, List.map_cons, List.map_nil]
      congr 1
      · refine List.map_congr_left fun k hk => ?_
        have hk := List.mem_range.1 hk
        unfold byteOf
        rw [Nat.div_div_eq_div_mul, show n + 1 - 1 - k = (n - 1 - k) + 1 by omega, Nat.mul_succ, pow_add, Nat.mul_comm 256]
        rfl
      · simp
    rw [e, beNat_append_one, ih]
    have hb : (byteOf v 0).toNat = v % 256 := by simp [byteOf]
    rw [hb, show 8 * (n + 1) = 8 + 8 * n by omega, pow_add, show (2 : Nat) ^ 8 = 256 from rfl, Nat.mod_mul]
    omega

theorem beBytes_two (v : Nat) : beBytes 2 v = be16 v := rfl

theorem beBytes_three (v : Nat) : beBytes 3 v = be24 v := rfl

/-! ## RC-channels-packed -/

theorem wireFields_length (c : Config) (payload : List Byte) : (wireFields c payload).length = c.nCh := by
  simp [wireFields]

theorem wireFields_getD (c : Config) (payload : List Byte) {k : Nat} (hk : k < c.nCh) :
    (wireFields c payload).getD k 0 =
      bitsNat c.chBits fun j => payloadBit payload (c.rcLayout.getD (c.chBits * k + j) 0) := by
  simp [wireFields, hk]

/-- A wire value has `CH_BITS` bits (R104). -/
theorem wireFields_lt {c : Config} {payload : List Byte} {w : Nat} (h : w ∈ wireFields c payload) :
    w < 2 ^ c.chBits := by
  obtain ⟨k, -, rfl⟩ := List.mem_map.1 h
  exact bitsNat_lt _ _

/-- Bit `n` of wire values laid end to end, found by value and bit. -/
theorem wireBit_field (c : Config) (ws : List Nat) (k : Nat) {j : Nat} (hj : j < c.chBits) :
    wireBit c ws (c.chBits * k + j) = (ws.getD k 0).testBit j := by
  unfold wireBit
  rw [Nat.mul_add_div (by omega), Nat.div_eq_of_lt hj, Nat.mul_add_mod, Nat.mod_eq_of_lt hj, Nat.add_zero]

theorem packWire_length (c : Config) (ws : List Nat) : (packWire c ws).length = c.rcPayload := by
  simp [packWire]

/-- Every bit of a packed payload is the bit of the wire values that the layout puts there. -/
theorem payloadBit_packWire (c : Config) (ws : List Nat) {p : Nat} (hp : p < 8 * c.rcPayload) :
    payloadBit (packWire c ws) p = wireBit c ws (c.rcLayout.idxOf p) := by
  have h1 : p / 8 < c.rcPayload := by omega
  have h2 : p % 8 < 8 := Nat.mod_lt _ (by omega)
  have e : 8 * (p / 8) + p % 8 = p := by omega
  rw [payloadBit, packWire, List.getD_eq_getElem _ _ (by simpa using h1), List.getElem_map, List.getElem_range,
    BitVec.getLsbD_ofNat, testBit_bitsNat, decide_eq_true h2, Bool.true_and, Bool.true_and, e]

/-- Payloads of one length with the same bits are the same. -/
theorem payload_ext {xs ys : List Byte} (hl : xs.length = ys.length)
    (h : ∀ p < 8 * xs.length, payloadBit xs p = payloadBit ys p) : xs = ys := by
  refine List.ext_getElem hl fun k h1 h2 => BitVec.eq_of_getLsbD_eq fun b hb => ?_
  have := h (8 * k + b) (by omega)
  rw [payloadBit, payloadBit, show (8 * k + b) / 8 = k by omega, show (8 * k + b) % 8 = b by omega] at this
  simpa [h1, h2] using this

/-- The field and the bit of a place in the layout. -/
theorem rcLayout_place {c : Config} (h : c.wf = true) {k j : Nat} (hk : k < c.nCh) (hj : j < c.chBits) :
    ∃ p, c.rcLayout[c.chBits * k + j]? = some p ∧ p < 8 * c.rcPayload ∧
      c.rcLayout.idxOf p = c.chBits * k + j := by
  obtain ⟨hc, -, -⟩ := Config.wf_layouts h
  obtain ⟨hs, -⟩ := Config.wf_sizes h
  have hlen := (layoutCovers_iff.1 hc).1
  have hb : c.chBits * k + j < c.rcLayout.length := by
    have : c.chBits * (k + 1) ≤ c.chBits * c.nCh := Nat.mul_le_mul_left _ hk
    rw [Nat.mul_succ] at this
    rw [hlen, ← hs, Nat.mul_comm c.nCh]
    omega
  exact ⟨_, List.getElem?_eq_getElem hb, (layoutCovers_mem hc).1 (List.getElem_mem hb),
    (layoutCovers_nodup hc).idxOf_getElem _ hb⟩

/-- Packing what was unpacked gives the payload back, whatever the layout. -/
theorem packWire_wireFields {c : Config} (h : c.wf = true) {payload : List Byte} (hl : payload.length = c.rcPayload) :
    packWire c (wireFields c payload) = payload := by
  obtain ⟨hc, -, -⟩ := Config.wf_layouts h
  obtain ⟨hs, -⟩ := Config.wf_sizes h
  refine payload_ext (by rw [packWire_length, hl]) fun p hp => ?_
  rw [packWire_length] at hp
  rw [payloadBit_packWire c _ hp]
  have hm : p ∈ c.rcLayout := (layoutCovers_mem hc).2 hp
  have hi : c.rcLayout.idxOf p < c.nCh * c.chBits := by
    rw [hs, ← (layoutCovers_iff.1 hc).1]
    exact List.idxOf_lt_length_iff.2 hm
  have hpos : 0 < c.chBits := Nat.pos_of_ne_zero fun h0 => by rw [h0] at hi; omega
  have hk : c.rcLayout.idxOf p / c.chBits < c.nCh := Nat.div_lt_of_lt_mul (by rwa [Nat.mul_comm])
  have hj : c.rcLayout.idxOf p % c.chBits < c.chBits := Nat.mod_lt _ hpos
  unfold wireBit
  rw [wireFields_getD c payload hk, testBit_bitsNat, Nat.div_add_mod]
  simp only [hj, decide_true, Bool.true_and]
  rw [List.getD_eq_getElem _ _ (List.idxOf_lt_length_iff.2 hm), List.getElem_idxOf]

/-- Unpacking what was packed gives the wire values back, whatever the layout. -/
theorem wireFields_packWire {c : Config} (h : c.wf = true) {ws : List Nat} (hl : ws.length = c.nCh)
    (hw : ∀ w ∈ ws, w < 2 ^ c.chBits) : wireFields c (packWire c ws) = ws := by
  refine List.ext_getElem (by rw [wireFields_length, hl]) fun k h1 h2 => Nat.eq_of_testBit_eq fun j => ?_
  have hk : k < c.nCh := by omega
  rw [← List.getD_eq_getElem _ 0 h1, wireFields_getD c _ hk, testBit_bitsNat]
  by_cases hj : j < c.chBits
  · obtain ⟨p, hp, hlt, hi⟩ := rcLayout_place h hk hj
    simp only [hj, decide_true, Bool.true_and]
    rw [List.getD_eq_getElem?_getD, hp, Option.getD_some, payloadBit_packWire c ws hlt, hi, wireBit_field c ws k hj,
      List.getD_eq_getElem _ _ h2]
  · simp only [hj, decide_false, Bool.false_and]
    refine (Nat.testBit_lt_two_pow ((hw _ (List.getElem_mem h2)).trans_le ?_)).symm
    exact Nat.pow_le_pow_right (by omega) (by omega)

/-! ## Battery sensor -/

/-- A scaled measurement (R109). -/
theorem scaledField_eq (n v div : Nat) : scaledField n v div = min (v / div) (2 ^ (8 * n) - 1) := by
  have hp : 1 ≤ 2 ^ (8 * n) := Nat.one_le_two_pow
  have hc : ((2 : Int) ^ (8 * n)) = ((2 ^ (8 * n) : Nat) : Int) := by push_cast; rfl
  have hd : divT (v : Int) (div : Int) = ((v / div : Nat) : Int) := rfl
  unfold scaledField
  rw [hd, hc]
  generalize v / div = q, 2 ^ (8 * n) = m at *
  unfold sat
  split
  · omega
  · split <;> omega

theorem btFieldBytes_length (c : Config) (mv ma mah : Nat) (pct : Byte) :
    (btFieldBytes c mv ma mah pct).length = c.btLayout.positions.length := by
  simp [btFieldBytes, BtLayout.positions, beBytes_length]

/-- Byte `i` of the battery fields stands in the payload byte that the layout names. -/
theorem packBt_getD {c : Config} (h : c.wf = true) (mv ma mah : Nat) (pct : Byte) {i : Nat}
    (hi : i < c.btLayout.positions.length) :
    (packBt c mv ma mah pct).getD c.btLayout.positions[i] 0 = (btFieldBytes c mv ma mah pct).getD i 0 := by
  obtain ⟨-, -, hc⟩ := Config.wf_layouts h
  have hlt : c.btLayout.positions[i] < c.btPayload := (layoutCovers_mem hc).1 (List.getElem_mem hi)
  simp [packBt, hlt, (layoutCovers_nodup hc).idxOf_getElem _ hi]

/-- The payload bytes that the layout names, in its order, are the battery fields' bytes. -/
theorem packBt_positions {c : Config} (h : c.wf = true) (mv ma mah : Nat) (pct : Byte) :
    (c.btLayout.positions.map fun k => (packBt c mv ma mah pct).getD k 0) = btFieldBytes c mv ma mah pct := by
  refine List.ext_getElem (by rw [List.length_map, btFieldBytes_length]) fun i h1 h2 => ?_
  rw [List.length_map] at h1
  rw [List.getElem_map, packBt_getD h mv ma mah pct h1, List.getD_eq_getElem _ _ h2]

end Sys2Proof.Machine
end

