-- ==== Sys2Proof/Laws/Mixer.lean ====
section
/-!
SUPPORT. The steps of a tick: what the axis step, the mix and the whole tick can do.
-/

namespace Sys2Proof.Machine

/-- The axis step writes the Channel Store only, and keeps its length. -/
theorem State.writeAxes_ok {pairs : List (Nat × Option Half)} {s t : State} (h : s.writeAxes pairs = .ok t) :
    t = { s with ch := t.ch } ∧ t.ch.length = s.ch.length := by
  induction pairs generalizing s with
  | nil =>
    cases h
    exact ⟨rfl, rfl⟩
  | cons p rest ih =>
    obtain ⟨k, o⟩ := p
    simp only [State.writeAxes, State.writeAxis] at h
    split at h
    · cases h
    · rename_i s' hs
      obtain ⟨h1, h2⟩ := ih h
      split at hs
      · cases hs
        exact ⟨h1, h2⟩
      · split at hs
        · cases hs
          rw [State.chWrite_length] at h2
          rw [State.chWrite_eq] at h1
          exact ⟨h1, h2⟩
        · cases hs

/-- The axis step never faults when every channel named exists. -/
theorem State.writeAxes_of_index {pairs : List (Nat × Option Half)} {s : State}
    (h : ∀ p ∈ pairs, s.cfg.chanIndex p.1 = true) : ∃ t, s.writeAxes pairs = .ok t := by
  induction pairs generalizing s with
  | nil => exact ⟨s, rfl⟩
  | cons p rest ih =>
    obtain ⟨k, o⟩ := p
    have hk : s.cfg.chanIndex k = true := h (k, o) (List.mem_cons_self ..)
    have hr : ∀ p ∈ rest, s.cfg.chanIndex p.1 = true := fun p hp => h p (List.mem_cons_of_mem _ hp)
    simp only [State.writeAxes, State.writeAxis]
    cases o with
    | none => exact ih hr
    | some v =>
      simp only
      rw [if_pos hk]
      exact ih (s := s.chWrite k (axisToCh s.cfg v.toInt)) (by rw [State.chWrite_cfg]; exact hr)

/-- The pulses read the configuration and the store only. -/
theorem State.servoPulses_congr {s t : State} (hc : s.cfg = t.cfg) (hch : s.ch = t.ch) (ks : List Nat) :
    s.servoPulses ks = t.servoPulses ks := by
  induction ks with
  | nil => rfl
  | cons k ks ih => simp only [State.servoPulses, State.chRead_congr hc hch k, ih, hc]

/-- The mix reads the configuration and the store only (R165). -/
theorem State.mixOut_congr {s t : State} (hc : s.cfg = t.cfg) (hch : s.ch = t.ch) : s.mixOut = t.mixOut := by
  unfold State.mixOut
  rw [hc]
  simp only [State.chRead_congr hc hch, State.servoPulses_congr hc hch]

/-- The pulses of channels that exist. -/
theorem State.servoPulses_of_index {s : State} (hl : s.ch.length = s.cfg.nCh) {ks : List Nat}
    (h : ∀ k ∈ ks, s.cfg.chanIndex k = true) :
    ∃ vs : List Int, ks.map s.chRead = vs.map some ∧
      s.servoPulses ks = .ok (vs.map fun v => servoPulse s.cfg v) := by
  induction ks with
  | nil => exact ⟨[], rfl, rfl⟩
  | cons k ks ih =>
    obtain ⟨vs, h1, h2⟩ := ih fun k hk => h k (List.mem_cons_of_mem _ hk)
    obtain ⟨v, hv⟩ := State.chRead_in (h k (List.mem_cons_self ..)) hl
    exact ⟨v :: vs, by rw [List.map_cons, List.map_cons, hv, h1],
      by simp only [State.servoPulses, hv, h2, List.map_cons]⟩

/-- Everything a tick can do when it answers a next state (R150): after the timeout step and the axis step, which
writes the store only, the mix is overridden and published. -/
theorem execCtrlTick_cases {now : Time} {mixEn : Bool} {axes : List (Option Half)} {s u : State}
    (h : execCtrlTick now mixEn axes s = .next u) :
    ∃ (a : State) (o : MixOutput), (s.begin.linkTimeout now).axisStep mixEn axes = .ok a ∧ a.mixOut = .ok o ∧
      u = a.publish (a.override o) ∧ a = { s.begin.linkTimeout now with ch := a.ch } ∧
      a.ch.length = s.ch.length := by
  have hch : (s.begin.linkTimeout now).ch = s.ch := by
    rw [State.linkTimeout_eq]
    rfl
  unfold execCtrlTick at h
  split at h
  · cases h
  · rename_i a ha
    unfold State.mixStep at h
    split at h
    · cases h
    · rename_i o ho
      cases h
      refine ⟨a, o, ha, ho, rfl, ?_⟩
      cases mixEn with
      | false =>
        cases ha
        exact ⟨rfl, by rw [hch]⟩
      | true =>
        obtain ⟨h1, h2⟩ := State.writeAxes_ok ha
        exact ⟨h1, by rw [h2, hch]⟩

end Sys2Proof.Machine
end

