-- ==== Sys2Proof/Laws/Parser.lean ====
section
/-!
SUPPORT. The receive parser: everything one byte can do, and how received bytes compose.
-/

namespace Sys2Proof.Machine

/-- The frame a matching checksum byte emits (R98). -/
def State.frameOf (b : Byte) (s : State) : Frame where
  addr := s.rxAddr
  len := s.rxLen
  type := s.rxType
  payload := s.received (s.rxLen.toNat - 2)
  checksum := b

/-! ## One received byte, rule by rule -/

/-- The FramingError of an illegal LEN byte (R180's sub-causes 1 and 2). -/
def lenError (b : Byte) : Raised := if b.toNat < 2 then .lenTooShort else .lenTooLong

theorem lenError_class (b : Byte) : (lenError b).errorClass = .framingError := by
  unfold lenError
  split <;> rfl

theorem lenLegal_iff {c : Config} {b : Byte} : lenLegal c b = true ↔ 2 ≤ b.toNat ∧ b.toNat - 2 ≤ c.maxPayload := by
  unfold lenLegal
  rw [Bool.and_eq_true, decide_eq_true_iff, decide_eq_true_iff]

theorem State.rxOne_addr {s : State} (b : Byte) (now : Time) (h : s.rxState = .addr) :
    s.rxOne b now = .ok { s with rxAddr := b, rxState := .len } := by
  simp only [State.rxOne, h, State.rxAddrByte]

theorem State.rxOne_len_ok {s : State} {b : Byte} (now : Time) (h : s.rxState = .len)
    (hb : lenLegal s.cfg b = true) : s.rxOne b now = .ok { s with rxLen := b, rxState := .type } := by
  have := lenLegal_iff.1 hb
  simp only [State.rxOne, h, State.rxLenByte]
  rw [if_neg (by omega), if_neg (by omega)]

theorem State.rxOne_len_bad {s : State} {b : Byte} (now : Time) (h : s.rxState = .len)
    (hb : lenLegal s.cfg b = false) :
    s.rxOne b now =
      .ok { s with rxState := .addr, out := { s.out with errors := s.out.errors ++ [lenError b] } } := by
  have : ¬(2 ≤ b.toNat ∧ b.toNat - 2 ≤ s.cfg.maxPayload) :=
    fun h => by rw [lenLegal_iff.2 h] at hb; cases hb
  simp only [State.rxOne, h, State.rxLenByte]
  by_cases h2 : b.toNat < 2
  · rw [if_pos h2, State.raiseError_framing s rfl, lenError, if_pos h2]
  · rw [if_neg h2, if_pos (by omega), State.raiseError_framing s rfl, lenError, if_neg h2]

theorem State.rxOne_type {s : State} (b : Byte) (now : Time) (h : s.rxState = .type) :
    s.rxOne b now = .ok (s.rxTypeByte b) := by
  simp only [State.rxOne, h]

theorem State.rxOne_payload {s : State} (b : Byte) (now : Time) (h : s.rxState = .payload)
    (hi : s.rxIdx < s.cfg.maxPayload) :
    s.rxOne b now = .ok { s with
      rxBuf := s.rxBuf.write s.rxIdx b, rxCrc := crc8Byte s.cfg s.rxCrc b, rxIdx := s.rxIdx + 1,
      rxState := if s.rxIdx + 1 = s.rxLen.toNat - 2 then .crc else .payload } := by
  simp only [State.rxOne, h, State.rxPayloadByte, State.bufStore_of_lt b hi]

theorem State.rxOne_payload_fault {s : State} (b : Byte) (now : Time) (h : s.rxState = .payload)
    (hi : ¬s.rxIdx < s.cfg.maxPayload) : s.rxOne b now = .error (.bufferRange s.rxIdx) := by
  simp only [State.rxOne, h, State.rxPayloadByte, State.bufStore]
  rw [if_neg hi]

theorem State.rxOne_crc_match {s : State} {b : Byte} (now : Time) (h : s.rxState = .crc)
    (hb : b = crcFinal s.cfg s.rxCrc) (hl : s.rxLen.toNat - 2 ≤ s.cfg.maxPayload) :
    s.rxOne b now = .ok (State.frameIn (s.frameOf b) now { s with rxState := .addr }) := by
  simp only [State.rxOne, h, State.rxCrcByte]
  rw [if_pos hb, State.bufLoad_of_le (s := { s with rxState := .addr }) hl]
  rfl

theorem State.rxOne_crc_fault {s : State} {b : Byte} (now : Time) (h : s.rxState = .crc)
    (hb : b = crcFinal s.cfg s.rxCrc) (hl : ¬s.rxLen.toNat - 2 ≤ s.cfg.maxPayload) :
    s.rxOne b now = .error (.bufferRange s.cfg.maxPayload) := by
  simp only [State.rxOne, h, State.rxCrcByte, State.bufLoad]
  rw [if_pos hb, if_neg hl]

theorem State.rxOne_crc_mismatch {s : State} {b : Byte} (now : Time) (h : s.rxState = .crc)
    (hb : b ≠ crcFinal s.cfg s.rxCrc) :
    s.rxOne b now =
      .ok { s with rxState := .addr, out := { s.out with errors := s.out.errors ++ [.checksumMismatch] } } := by
  simp only [State.rxOne, h, State.rxCrcByte]
  rw [if_neg hb, State.raiseError_framing _ rfl]

/-- Everything one received byte can do when it answers a next state (R94 to R98). -/
theorem State.rxOne_cases {b : Byte} {now : Time} {s t : State} (h : s.rxOne b now = .ok t) :
    (s.rxState = .addr ∧ t = { s with rxAddr := b, rxState := .len }) ∨
    (s.rxState = .len ∧ lenLegal s.cfg b = false ∧
      t = { s with rxState := .addr, out := { s.out with errors := s.out.errors ++ [lenError b] } }) ∨
    (s.rxState = .len ∧ lenLegal s.cfg b = true ∧ t = { s with rxLen := b, rxState := .type }) ∨
    (s.rxState = .type ∧ t = s.rxTypeByte b) ∨
    (s.rxState = .payload ∧ s.rxIdx < s.cfg.maxPayload ∧ t = { s with
      rxBuf := s.rxBuf.write s.rxIdx b, rxCrc := crc8Byte s.cfg s.rxCrc b, rxIdx := s.rxIdx + 1,
      rxState := if s.rxIdx + 1 = s.rxLen.toNat - 2 then .crc else .payload }) ∨
    (s.rxState = .crc ∧ b ≠ crcFinal s.cfg s.rxCrc ∧
      t = { s with rxState := .addr, out := { s.out with errors := s.out.errors ++ [.checksumMismatch] } }) ∨
    (s.rxState = .crc ∧ b = crcFinal s.cfg s.rxCrc ∧ s.rxLen.toNat - 2 ≤ s.cfg.maxPayload ∧
      t = State.frameIn (s.frameOf b) now { s with rxState := .addr }) := by
  cases hs : s.rxState
  · rw [State.rxOne_addr b now hs] at h
    cases h
    exact .inl ⟨rfl, rfl⟩
  · cases hl : lenLegal s.cfg b
    · rw [State.rxOne_len_bad now hs hl] at h
      cases h
      exact .inr (.inl ⟨rfl, rfl, rfl⟩)
    · rw [State.rxOne_len_ok now hs hl] at h
      cases h
      exact .inr (.inr (.inl ⟨rfl, rfl, rfl⟩))
  · rw [State.rxOne_type b now hs] at h
    cases h
    exact .inr (.inr (.inr (.inl ⟨rfl, rfl⟩)))
  · by_cases hi : s.rxIdx < s.cfg.maxPayload
    · rw [State.rxOne_payload b now hs hi] at h
      cases h
      exact .inr (.inr (.inr (.inr (.inl ⟨rfl, hi, rfl⟩))))
    · rw [State.rxOne_payload_fault b now hs hi] at h
      cases h
  · by_cases hb : b = crcFinal s.cfg s.rxCrc
    · by_cases hl : s.rxLen.toNat - 2 ≤ s.cfg.maxPayload
      · rw [State.rxOne_crc_match now hs hb hl] at h
        cases h
        exact .inr (.inr (.inr (.inr (.inr (.inr ⟨rfl, hb, hl, rfl⟩)))))
      · rw [State.rxOne_crc_fault now hs hb hl] at h
        cases h
    · rw [State.rxOne_crc_mismatch now hs hb] at h
      cases h
      exact .inr (.inr (.inr (.inr (.inr (.inl ⟨rfl, hb, rfl⟩)))))

/-- Received bytes in two parts are received one part after the other (R100). -/
theorem State.rxMany_append (now : Time) (xs ys : List Byte) (s : State) :
    s.rxMany now (xs ++ ys) =
      match s.rxMany now xs with
      | .ok t => t.rxMany now ys
      | .error f => .error f := by
  induction xs generalizing s with
  | nil => rfl
  | cons x xs ih =>
    simp only [List.cons_append, State.rxMany]
    cases s.rxOne x now with
    | error f => rfl
    | ok t => exact ih t

/-- `t` with another boundary, and outputs `o` before its own. -/
def State.reboundary (p : List Presented) (ob : List Byte) (o : Output) (t : State) : State :=
  { t with
    pending := p
    outbound := ob
    out := { o with events := o.events ++ t.out.events, errors := o.errors ++ t.out.errors } }

@[simp] theorem State.reboundary_cfg (p ob o) (t : State) : (t.reboundary p ob o).cfg = t.cfg := rfl
@[simp] theorem State.reboundary_ch (p ob o) (t : State) : (t.reboundary p ob o).ch = t.ch := rfl
@[simp] theorem State.reboundary_rxState (p ob o) (t : State) : (t.reboundary p ob o).rxState = t.rxState := rfl
@[simp] theorem State.reboundary_rxAddr (p ob o) (t : State) : (t.reboundary p ob o).rxAddr = t.rxAddr := rfl
@[simp] theorem State.reboundary_rxLen (p ob o) (t : State) : (t.reboundary p ob o).rxLen = t.rxLen := rfl
@[simp] theorem State.reboundary_rxType (p ob o) (t : State) : (t.reboundary p ob o).rxType = t.rxType := rfl
@[simp] theorem State.reboundary_rxIdx (p ob o) (t : State) : (t.reboundary p ob o).rxIdx = t.rxIdx := rfl
@[simp] theorem State.reboundary_rxCrc (p ob o) (t : State) : (t.reboundary p ob o).rxCrc = t.rxCrc := rfl
@[simp] theorem State.reboundary_rxBuf (p ob o) (t : State) : (t.reboundary p ob o).rxBuf = t.rxBuf := rfl
@[simp] theorem State.reboundary_linkUp (p ob o) (t : State) : (t.reboundary p ob o).linkUp = t.linkUp := rfl
@[simp] theorem State.reboundary_lastValidTs (p ob o) (t : State) : (t.reboundary p ob o).lastValidTs = t.lastValidTs := rfl
@[simp] theorem State.reboundary_ls (p ob o) (t : State) : (t.reboundary p ob o).ls = t.ls := rfl

theorem State.frameIn_reboundary (f : Frame) (now : Time) (p : List Presented) (ob : List Byte) (o : Output)
    (s : State) :
    (s.reboundary p ob o).frameIn f now = (s.frameIn f now).reboundary p ob o := by
  rw [State.frameIn_eq, State.frameIn_eq]
  simp only [State.reboundary, List.append_assoc]
  rfl

/-- A received byte does not look at the boundary: notifications and errors come after what is there already. -/
theorem State.rxOne_reboundary (b : Byte) (now : Time) (p : List Presented) (ob : List Byte) (o : Output)
    (s : State) :
    (s.reboundary p ob o).rxOne b now = (s.rxOne b now).map (State.reboundary p ob o) := by
  cases hs : s.rxState
  · rw [State.rxOne_addr b now hs, State.rxOne_addr b now (s := s.reboundary p ob o) hs]
    rfl
  · cases hl : lenLegal s.cfg b
    · rw [State.rxOne_len_bad now hs hl, State.rxOne_len_bad now (s := s.reboundary p ob o) hs hl]
      simp only [Except.map, State.reboundary, List.append_assoc]
    · rw [State.rxOne_len_ok now hs hl, State.rxOne_len_ok now (s := s.reboundary p ob o) hs hl]
      rfl
  · rw [State.rxOne_type b now hs, State.rxOne_type b now (s := s.reboundary p ob o) hs]
    rfl
  · by_cases hi : s.rxIdx < s.cfg.maxPayload
    · rw [State.rxOne_payload b now hs hi, State.rxOne_payload b now (s := s.reboundary p ob o) hs hi]
      rfl
    · rw [State.rxOne_payload_fault b now hs hi, State.rxOne_payload_fault b now (s := s.reboundary p ob o) hs hi]
      rfl
  · by_cases hb : b = crcFinal s.cfg s.rxCrc
    · by_cases hl : s.rxLen.toNat - 2 ≤ s.cfg.maxPayload
      · rw [State.rxOne_crc_match now hs hb hl, State.rxOne_crc_match now (s := s.reboundary p ob o) hs hb hl]
        exact congrArg Except.ok (State.frameIn_reboundary (s.frameOf b) now p ob o { s with rxState := .addr })
      · rw [State.rxOne_crc_fault now hs hb hl, State.rxOne_crc_fault now (s := s.reboundary p ob o) hs hb hl]
        rfl
    · rw [State.rxOne_crc_mismatch now hs hb, State.rxOne_crc_mismatch now (s := s.reboundary p ob o) hs hb]
      simp only [Except.map, State.reboundary, List.append_assoc]

/-- The same for received bytes. -/
theorem State.rxMany_reboundary (now : Time) (bs : List Byte) (p : List Presented) (ob : List Byte) (o : Output)
    (s : State) :
    (s.reboundary p ob o).rxMany now bs = (s.rxMany now bs).map (State.reboundary p ob o) := by
  induction bs generalizing s with
  | nil => rfl
  | cons b bs ih =>
    simp only [State.rxMany, State.rxOne_reboundary]
    cases s.rxOne b now with
    | error f => rfl
    | ok t => exact ih t

/-- Received bytes leave the boundary alone. -/
theorem State.rxOne_boundary {b : Byte} {now : Time} {s t : State} (h : s.rxOne b now = .ok t) :
    t.cfg = s.cfg ∧ t.pending = s.pending ∧ t.outbound = s.outbound ∧
      t.out.tx = s.out.tx ∧ t.out.mix = s.out.mix ∧ t.out.result = s.out.result := by
  rcases State.rxOne_cases h with ⟨-, rfl⟩ | ⟨-, -, rfl⟩ | ⟨-, -, rfl⟩ | ⟨-, rfl⟩ | ⟨-, -, rfl⟩ |
    ⟨-, -, rfl⟩ | ⟨-, -, -, rfl⟩
  all_goals try exact ⟨rfl, rfl, rfl, rfl, rfl, rfl⟩
  rw [State.frameIn_eq]
  exact ⟨rfl, rfl, rfl, rfl, rfl, rfl⟩

theorem State.rxMany_boundary {bs : List Byte} {now : Time} {s t : State} (h : s.rxMany now bs = .ok t) :
    t.cfg = s.cfg ∧ t.pending = s.pending ∧ t.outbound = s.outbound ∧
      t.out.tx = s.out.tx ∧ t.out.mix = s.out.mix ∧ t.out.result = s.out.result := by
  induction bs generalizing s with
  | nil =>
    cases h
    exact ⟨rfl, rfl, rfl, rfl, rfl, rfl⟩
  | cons b bs ih =>
    simp only [State.rxMany] at h
    split at h
    · cases h
    · rename_i s' hs'
      obtain ⟨h1, h2, h3, h4, h5, h6⟩ := State.rxOne_boundary hs'
      obtain ⟨g1, g2, g3, g4, g5, g6⟩ := ih h
      exact ⟨g1.trans h1, g2.trans h2, g3.trans h3, g4.trans h4, g5.trans h5, g6.trans h6⟩

end Sys2Proof.Machine
end

