-- ==== Sys2Proof/Laws/PerInstr.lean ====
section
/-!
SUPPORT. The per-instruction family `RowFormat`: which format a row's encoding has, and on which selector.
-/

namespace Sys2Proof

/-- The selector of a row on the operation port (30_encoding.md R75, R76); none for the four wire rows. -/
def Instr.selector : Instr → Option Sel
  | .rxByte _ _ => some 0x1
  | .rxTick _ _ => some 0x2
  | .ctrlTick _ _ _ => some 0x3
  | .setChannel _ _ => some 0x4
  | .getChannel _ => some 0x5
  | .sendChannels => some 0x6
  | .encode _ _ => some 0x7
  | .sendBattery _ _ _ _ => some 0x8
  | .isLinkUp => some 0x9
  | .getLinkStats => some 0xA
  | .reset => some 0xF
  | .reserved0 => some 0x0
  | .reservedB => some 0xB
  | .reservedC => some 0xC
  | .reservedD => some 0xD
  | .reservedE => some 0xE
  | .frameRcChannelsPacked _ _ _ _ => none
  | .frameLinkStatistics _ _ _ _ => none
  | .frameBatterySensor _ _ _ _ => none
  | .frameOther _ _ _ _ => none

/-- Under every configuration, a port row is encoded on its own selector and a wire row as two bytes or more. -/
def Laws.RowFormat.Statement (i : Instr) : Prop :=
  ∀ c : Config,
    match i.selector with
    | some op => ∃ lanes, encode c i = .port op lanes
    | none => ∃ bs now, encode c i = .wire bs now ∧ 2 ≤ bs.length

namespace Laws.RowFormat

theorem rxByte (b : Byte) (now : Time) : Statement (.rxByte b now) := fun _ => ⟨_, rfl⟩
theorem rxTick (bs : List Byte) (now : Time) : Statement (.rxTick bs now) := fun _ => ⟨_, rfl⟩
theorem ctrlTick (now : Time) (mixEn : Bool) (axes : List (Option Half)) : Statement (.ctrlTick now mixEn axes) :=
  fun _ => ⟨_, rfl⟩
theorem setChannel (i : Nat) (v : Half) : Statement (.setChannel i v) := fun _ => ⟨_, rfl⟩
theorem getChannel (i : Nat) : Statement (.getChannel i) := fun _ => ⟨_, rfl⟩
theorem sendChannels : Statement .sendChannels := fun _ => ⟨_, rfl⟩
theorem encode (ty : Byte) (payload : List Byte) : Statement (.encode ty payload) := fun _ => ⟨_, rfl⟩
theorem sendBattery (mv ma mah : Nat) (pct : Byte) : Statement (.sendBattery mv ma mah pct) := fun _ => ⟨_, rfl⟩
theorem isLinkUp : Statement .isLinkUp := fun _ => ⟨_, rfl⟩
theorem getLinkStats : Statement .getLinkStats := fun _ => ⟨_, rfl⟩
theorem reset : Statement .reset := fun _ => ⟨_, rfl⟩
theorem reserved0 : Statement .reserved0 := fun _ => ⟨_, rfl⟩
theorem reservedB : Statement .reservedB := fun _ => ⟨_, rfl⟩
theorem reservedC : Statement .reservedC := fun _ => ⟨_, rfl⟩
theorem reservedD : Statement .reservedD := fun _ => ⟨_, rfl⟩
theorem reservedE : Statement .reservedE := fun _ => ⟨_, rfl⟩
theorem frameRcChannelsPacked (addr : Byte) (payload : List Byte) (checksum : Byte) (now : Time) :
    Statement (.frameRcChannelsPacked addr payload checksum now) := fun _ => ⟨_, _, rfl, by simp [frameBytes]⟩
theorem frameLinkStatistics (addr : Byte) (payload : List Byte) (checksum : Byte) (now : Time) :
    Statement (.frameLinkStatistics addr payload checksum now) := fun _ => ⟨_, _, rfl, by simp [frameBytes]⟩
theorem frameBatterySensor (addr : Byte) (payload : List Byte) (checksum : Byte) (now : Time) :
    Statement (.frameBatterySensor addr payload checksum now) := fun _ => ⟨_, _, rfl, by simp [frameBytes]⟩
theorem frameOther (addr len : Byte) (body : List Byte) (now : Time) :
    Statement (.frameOther addr len body now) := fun _ => ⟨_, _, rfl, by simp⟩

end Laws.RowFormat

end Sys2Proof
end

