-- ==== Sys2Proof/Laws/Step.lean ====
section
/-!
SUPPORT. One step and runs of steps.
-/

namespace Sys2Proof.Machine

/-- Nothing is presented: the step is idle. -/
theorem step_idle {s : State} (h : s.pending = []) : step s = .next s := by
  unfold step State.fetch
  rw [h]

/-- The head of `pending` decodes: the step is exec of the instruction. -/
theorem step_run {s : State} {p : Presented} {rest more : List Presented} {i : Instr} (h : s.pending = p :: rest)
    (hd : decode s.cfg p = .ok (i, more)) : step s = exec i { s with pending := more ++ rest } := by
  unfold step State.fetch
  rw [h]
  simp only [hd]

/-- The head of `pending` does not decode: the step refuses. -/
theorem step_bad {s : State} {p : Presented} {rest : List Presented} {e : DecodeError} (h : s.pending = p :: rest)
    (hd : decode s.cfg p = .error e) : step s = .refused (.badOperands e) := by
  unfold step State.fetch
  rw [h]
  simp only [hd]

/-- Everything a step can do when it answers a next state. -/
theorem step_cases {s t : State} (h : step s = .next t) :
    (s.pending = [] ∧ t = s) ∨
      ∃ p rest i more, s.pending = p :: rest ∧ decode s.cfg p = .ok (i, more) ∧
        exec i { s with pending := more ++ rest } = .next t := by
  cases hp : s.pending with
  | nil =>
    rw [step_idle hp] at h
    cases h
    exact .inl ⟨rfl, rfl⟩
  | cons p rest =>
    cases hd : decode s.cfg p with
    | error e =>
      rw [step_bad hp hd] at h
      cases h
    | ok r =>
      obtain ⟨i, more⟩ := r
      rw [step_run hp hd] at h
      exact .inr ⟨p, rest, i, more, rfl, hd, h⟩

theorem run_zero (s : State) : Host.Core.run Sys2Proof.core 0 s = .next s := rfl

theorem run_succ {k : Nat} {s t : State} (h : step s = .next t) :
    Host.Core.run Sys2Proof.core (k + 1) s = Host.Core.run Sys2Proof.core k t := by
  have h' : Sys2Proof.core.step s = .next t := h
  simp only [Host.Core.run, h']

end Sys2Proof.Machine
end

