-- ==== Sys2Proof/Tests/Slice0.lean ====
section
/-!
SUPPORT. Tests: ill-formed terms that WellFormed refuses, words decoded, one step of each instruction on values of
95_test_vectors.md, and for each statement with hypotheses a concrete state and operands that meet them.
-/

-- The small kernel checks below run one after another rather than on a thread each.
set_option Elab.async false

namespace Sys2Proof.Tests

open Sys2Proof.Machine

/-! ## WellFormed refuses ill-formed configurations, one term per check -/

/-- Every configuration of the list is refused. -/
def allRefused (cs : List Config) : Bool := cs.all fun c => !c.wf

theorem test_wf_refuses_sizes :
    allRefused [{ nCh := 15 }, { maxPayload := 21 }, { lsPayload := 61 }, { btPayload := 61 }, { maxPayload := 254 }] =
      true := by decide +kernel
/-- A link-statistics field beyond the payload; a payload byte that no battery field uses; a battery byte used twice;
an RC layout that is too short. -/
theorem test_wf_refuses_layouts :
    allRefused [{ lsPayload := 9 }, { btPayload := 9 }, { btLayout := { remaining := 6 } },
      { rcLayout := List.range 175 }] = true := by decide +kernel
theorem test_wf_refuses_equal_types :
    allRefused [{ typeLs := 0x16 }, { typeBt := 0x16 }, { typeBt := 0x14 }] = true := by decide +kernel
theorem test_wf_refuses_ranges :
    allRefused [{ chHalf := 0 }, { chMin := 1501 }, { chMax := 1499 }, { chMin := -32769 }, { chMax := 32768 },
      { tFs1 := 4294967296 }, { chW := 11 }, { timeW := 9 }] = true := by decide +kernel
theorem test_wf_refuses_divisors :
    allRefused [{ axisMax := 0 }, { axisMin := 0 }, { btVDiv := 0 }, { btIDiv := 0 }] = true := by decide +kernel
theorem test_wf_refuses_indices :
    allRefused [{ mixA := 0 }, { mixB := 17 }, { axisCh := [1, 17] }, { servoCh := [0] }] = true := by decide +kernel

/-- Four channels of four bits, so that the wire condition of R106 has sixteen cases. -/
def narrow : Config := { nCh := 4, chBits := 4, rcPayload := 2 }

/-- A wire value out of the field, a conversion that does not round-trip, a Channel Value too wide. -/
theorem test_wf_refuses_conversions :
    allRefused [{ narrow with chOverrides := [(2500, 16)] }, { narrow with wireOverrides := [(5, 1000)] },
      { narrow with wireOverrides := [(5, 40000)], chOverrides := [(40000, 5)] }] = true := by decide +kernel
theorem test_wf_accepts_conversion :
    ({ narrow with wireOverrides := [(5, 3000)], chOverrides := [(3000, 5)] } : Config).wf = true := by decide +kernel

/-- Two channels of one byte, the first most significant bit first; link quality first, in a payload of three bytes;
the battery fields little-endian and the percentage first; channels of 12 bits and times of 10. -/
def other : Config where
  nCh := 2
  chBits := 8
  rcPayload := 2
  lsPayload := 3
  chW := 12
  timeW := 10
  rcLayout := [15, 14, 13, 12, 11, 10, 9, 8, 0, 1, 2, 3, 4, 5, 6, 7]
  lsLayout := { upLq := 0, upRssi1 := 1, upRssi2 := 2, upSnr := 2, ant := 2, rfMode := 2, upTxpow := 2, dnRssi := 2,
                dnLq := 2, dnSnr := 2 }
  btLayout := { voltage := [2, 1], current := [4, 3], capacity := [7, 6, 5], remaining := 0 }
  axisCh := [1, 2]
  servoCh := [1]

theorem test_wf_accepts_other : other.wf = true := by decide +kernel
/-- 0xA6 most significant bit first is 0x65, in the second byte; the packer puts it back. -/
theorem test_other_rc : unpackRc other [0x07, 0xA6] = [0x65, 0x07] ∧ packRc other [0x65, 0x07] = [0x07, 0xA6] := by
  decide +kernel
theorem test_other_ls : (unpackLs other [90, 100, 95]).upLq = 90 ∧ (unpackLs other [90, 100, 95]).upRssi1 = 100 := by
  decide +kernel
theorem test_other_bt : packBt other 12600 15300 2200 87 = [0x57, 0x7E, 0x00, 0x99, 0x00, 0x98, 0x08, 0x00] := by
  decide +kernel
/-- Two's complement in 12 bits; the modular difference of 10-bit times. -/
theorem test_other_widths : other.toCh 2048 = -2048 ∧ other.toCh (-1) = -1 ∧ elapsed other 3 1020 = 7 := by
  decide +kernel

/-! ## WellFormed refuses ill-formed instructions -/

/-- The wrong count of samples; a sample out of range; a time of 33 bits; the wrong payload size for each wire row; and a FRAME_OTHER
with no body under a legal LEN, a body under an illegal LEN, a body of another length, a header of another row. -/
theorem test_wf_refuses_instructions :
    Instr.wf {} (.ctrlTick 0 true [none, none, none]) = false ∧
      Instr.wf { axisMax := 100 } (.ctrlTick 0 true [some 101, none, none, none]) = false ∧
      Instr.wf {} (.rxByte 0 4294967296) = false ∧ Instr.wf {} (.frameRcChannelsPacked 0 [1, 2] 0 0) = false ∧
      Instr.wf {} (.frameLinkStatistics 0 [1] 0 0) = false ∧ Instr.wf {} (.frameBatterySensor 0 [] 0 0) = false ∧
      Instr.wf {} (.frameOther 0 2 [] 0) = false ∧ Instr.wf {} (.frameOther 0 1 [7] 0) = false ∧
      Instr.wf {} (.frameOther 0 3 [7, 7] 0) = false ∧
      Instr.wf {} (.frameOther 0 10 [0x08, 0, 0, 0, 0, 0, 0, 0, 0, 0] 0) = false := by decide +kernel

/-! ## Decoding: words and operands written out from R75, R76, R60, R64 to R66 -/

/-- The sixteen selectors in order, their operands zero. -/
theorem test_words_port :
    (List.range 16).map (decodeTableWord 8) =
      [some .reserved0, some (.rxByte 0 0), some (.rxTick [] 0), some (.ctrlTick 0 false [none, none, none, none]),
        some (.setChannel 0 0), some (.getChannel 0), some .sendChannels, some (.encode 0 []),
        some (.sendBattery 0 0 0 0), some .isLinkUp, some .getLinkStats, some .reservedB, some .reservedC,
        some .reservedD, some .reservedE, some .reset] := by decide +kernel
/-- The headers C8 18 16, C8 0C 14, EE 0A 08 and C8 04 16, the rest of the frame zero. -/
theorem test_words_wire :
    [0xC81816, 0xC80C14, 0xEE0A08, 0xC80416].map (decodeTableWord 24) =
      [some (.frameRcChannelsPacked 0xC8 (List.replicate 22 0) 0 0),
        some (.frameLinkStatistics 0xC8 (List.replicate 10 0) 0 0),
        some (.frameBatterySensor 0xEE (List.replicate 8 0) 0 0), some (.frameOther 0xC8 4 [0x16, 0, 0, 0] 0)] := by
  decide +kernel

/-- The operand order of R75's table: b, now. -/
theorem test_lanes_rxByte : decode {} (.port 0x1 [0xC8, 100]) = .ok (.rxByte 0xC8 100, []) := by decide +kernel
theorem test_lanes_rxTick : decode {} (.port 0x2 [2, 0xC8, 0x18, 7]) = .ok (.rxTick [0xC8, 0x18] 7, []) := by
  decide +kernel
/-- now, mix_en, then N_AXIS samples, "-" unavailable. -/
theorem test_lanes_ctrlTick :
    decode {} (.port 0x3 [9, 1, 1, 32767, 0, 0, 1, -5, 0, 0]) =
      .ok (.ctrlTick 9 true [some 0x7FFF, none, some 0xFFFB, none], []) := by decide +kernel
theorem test_lanes_setChannel : decode {} (.port 0x4 [1, -5]) = .ok (.setChannel 1 0xFFFB, []) := by decide +kernel
theorem test_lanes_encode : decode {} (.port 0x7 [0x16, 2, 3, 4]) = .ok (.encode 0x16 [3, 4], []) := by
  decide +kernel
theorem test_lanes_sendBattery :
    decode {} (.port 0x8 [12600, 15300, 2200, 87]) = .ok (.sendBattery 12600 15300 2200 87, []) := by decide +kernel
theorem test_lanes_refused :
    decode {} (.port 0x1 [256, 0]) = .error .notByte ∧ decode {} (.port 0x1 [5]) = .error .operandMissing ∧
      decode {} (.port 0x9 [5]) = .error .operandSurplus ∧ decode {} (.port 0x5 [-1]) = .error .notUnsigned ∧
      decode {} (.port 0x4 [1, 40000]) = .error .notHalf ∧ decode {} (.port 0x1 [5, 4294967296]) = .error .notTime ∧
      decode {} (.wire [5] 4294967296) = .error .notTime ∧
      decode {} (.port 0x3 [0, 2, 0, 0, 0, 0, 0, 0, 0, 0]) = .error .notBit := by decide +kernel

/-- `<LS2>` of table C followed by one byte of the next frame. -/
theorem test_wire_ls :
    decode {} (.wire [0xC8, 0x0C, 0x14, 0x64, 0x5F, 0x5A, 0xF6, 0x01, 0x02, 0x03, 0x50, 0x46, 0x05, 0xDB, 0xC8] 3) =
      .ok (.frameLinkStatistics 0xC8 [0x64, 0x5F, 0x5A, 0xF6, 0x01, 0x02, 0x03, 0x50, 0x46, 0x05] 0xDB 3,
        [.wire [0xC8] 3]) := by decide +kernel
/-- R95: an illegal LEN ends the frame; R61: too few bytes are no frame. -/
theorem test_wire_illegal_len_and_partial :
    decode {} (.wire [0xC8, 1, 9] 3) = .ok (.frameOther 0xC8 1 [] 3, [.wire [9] 3]) ∧
      decode {} (.wire [0xC8, 2, 9] 3) = .ok (.rxTick [0xC8, 2, 9] 3, []) := by decide +kernel

/-! ## One step of each instruction, on values of 95_test_vectors.md -/

/-- Machine right after reset, the link `Up` since time `ts`. -/
def up (ts : Time) : State := { State.reset with linkUp := true, lastValidTs := ts }

/-- The next state of an operation; the starting state where it stops. -/
def after (i : Instr) (s : State) : State :=
  match exec i s with
  | .next t => t
  | .fault _ => s
  | .refused _ => s

/-- The operation answers a next state. -/
def answers (i : Instr) (s : State) : Bool :=
  match exec i s with
  | .next _ => true
  | .fault _ => false
  | .refused _ => false

theorem exec_after {i : Instr} {s : State} (h : answers i s = true) : exec i s = .next (after i s) := by
  unfold answers at h
  unfold after
  cases he : exec i s <;> simp_all

/-- The state of the parser inside table D's frame, after its type byte. -/
def inPayload : State :=
  { State.reset with rxState := .payload, rxAddr := 0xC8, rxLen := 0x18, rxType := 0x16, rxCrc := 0xD3 }

/-- The state of the parser inside `<UNK0>`, before its checksum byte. -/
def inChecksum : State :=
  { State.reset with rxState := .crc, rxAddr := 0xC8, rxLen := 0x02, rxType := 0x7F, rxCrc := 0x16 }

/-- Table D: `rx_crc` = 8A after the first payload byte. -/
theorem test_rxByte_payload :
    (after (.rxByte 0x00 0) inPayload).rxCrc = 0x8A ∧ (after (.rxByte 0x00 0) inPayload).rxIdx = 1 := by
  decide +kernel
/-- Table F: `<UNK0>` refreshes the timestamp and raises UnsupportedFrameType. -/
theorem test_rxByte_checksum :
    (after (.rxByte 0x16 5) inChecksum).lastValidTs = 5 ∧
      (after (.rxByte 0x16 5) inChecksum).out.errors = [.unknownType] := by decide +kernel

/-- Table E: `RXT 55 <RC0> @7` is misframed. -/
theorem test_rxTick_misframed :
    (after (.rxTick (0x55 :: 0xC8 :: 0x18 :: 0x16 :: (List.replicate 22 0 ++ [0xEF])) 7) State.reset).rxState = .len ∧
      (after (.rxTick (0x55 :: 0xC8 :: 0x18 :: 0x16 :: (List.replicate 22 0 ++ [0xEF])) 7) State.reset).out.errors =
        [.lenTooLong, .unknownType] := by decide +kernel

/-- Table F: elapsed 1000 keeps the link, elapsed 1001 lowers it. -/
theorem test_ctrlTick_timeout :
    (after (.ctrlTick 1010 false [none, none, none, none]) (up 10)).linkUp = true ∧
      (after (.ctrlTick 1011 false [none, none, none, none]) (up 10)).out.events = [.linkDown] := by decide +kernel
/-- S3, S12 (2000 and 1000) and the full mix of channels 2000 and 1000: left +500, right 0. -/
theorem test_ctrlTick_mix :
    (after (.ctrlTick 0 true [some 0x7FFF, some 0x8000, none, none]) (up 0)).chRead 2 = some 1000 ∧
      (after (.ctrlTick 0 true [some 0x7FFF, some 0x8000, none, none]) (up 0)).out.mix =
        some (.diff { dir := false, duty := 500 } { dir := false, duty := 0 }) := by decide +kernel

/-- Table G. -/
theorem test_setChannel_saturates : (after (.setChannel 1 2500) State.reset).chRead 1 = some 2000 := by
  decide +kernel
theorem test_setChannel_negative : (after (.setChannel 1 0xFFFB) State.reset).chRead 1 = some 1000 := by
  decide +kernel
theorem test_getChannel : (after (.getChannel 16) State.reset).out.result = .channel 1500 := by decide +kernel
theorem test_getChannel_refused : (exec (.getChannel 17) State.reset matches .refused (.channelIndex 17)) = true := by
  decide +kernel
/-- `SEND` after reset is `<RC1500>`. -/
theorem test_sendChannels :
    (after .sendChannels State.reset).out.tx =
      [0xC8, 0x18, 0x16, 0xDC, 0xE5, 0x2E, 0x77, 0xB9, 0xCB, 0x5D, 0xEE, 0x72, 0x97, 0xBB,
        0xDC, 0xE5, 0x2E, 0x77, 0xB9, 0xCB, 0x5D, 0xEE, 0x72, 0x97, 0xBB, 0x51] := by decide +kernel
/-- Table C: `<LS2>`. -/
theorem test_encode :
    (after (.encode 0x14 [0x64, 0x5F, 0x5A, 0xF6, 0x01, 0x02, 0x03, 0x50, 0x46, 0x05]) State.reset).out.result =
      .bytes [0xC8, 0x0C, 0x14, 0x64, 0x5F, 0x5A, 0xF6, 0x01, 0x02, 0x03, 0x50, 0x46, 0x05, 0xDB] := by
  decide +kernel
theorem test_encode_refused : (after (.encode 0x16 [0, 0]) State.reset).out.result = .invalidPayloadSize := by
  decide +kernel
/-- Table C: `<BT1>`, and the saturating row. -/
theorem test_sendBattery :
    (after (.sendBattery 12600 15300 2200 87) State.reset).outbound =
      [0xC8, 0x0A, 0x08, 0x00, 0x7E, 0x00, 0x99, 0x00, 0x08, 0x98, 0x57, 0xC3] := by decide +kernel
theorem test_sendBattery_saturates :
    ((after (.sendBattery 99 199 16777216 255) State.reset).out.tx.drop 3).take 8 =
      [0x00, 0x00, 0x00, 0x01, 0xFF, 0xFF, 0xFF, 0xFF] := by decide +kernel
theorem test_isLinkUp : (after .isLinkUp (up 5)).out.result = .bit true := by decide +kernel
theorem test_getLinkStats :
    (after .getLinkStats { State.reset with ls := { upLq := 90 } }).out.result = .stats { upLq := 90 } := by
  decide +kernel
/-- Table F's last row: no `ev_link_down` at reset. -/
theorem test_reset : (after .reset (up 5)).linkUp = false ∧ (after .reset (up 5)).out.events = [] := by decide +kernel
theorem test_reserved :
    (exec .reserved0 (up 5) matches .refused (.reservedSelector 0x0)) = true ∧
      (exec .reservedE (up 5) matches .refused (.reservedSelector 0xE)) = true := by decide +kernel
/-- `<RAMP>` from Down: channels 1000 to 1750, link up. -/
theorem test_frameRc :
    (after (.frameRcChannelsPacked 0xC8 [0xE8, 0xD3, 0x20, 0x13, 0xFD, 0x08, 0x4B, 0x71, 0x52, 0xD4, 0xA8, 0x78, 0x55,
        0x2D, 0x77, 0x1D, 0x0C, 0x64, 0x39, 0x93, 0xDA, 0xDA] 0x13 6) State.reset).ch =
      [1000, 1050, 1100, 1150, 1200, 1250, 1300, 1350, 1400, 1450, 1500, 1550, 1600, 1650, 1700, 1750] := by
  decide +kernel
/-- `<LS2>`: dn_lq = 70, up_snr = -10. -/
theorem test_frameLs :
    (after (.frameLinkStatistics 0xC8 [0x64, 0x5F, 0x5A, 0xF6, 0x01, 0x02, 0x03, 0x50, 0x46, 0x05] 0xDB 5)
      State.reset).ls.dnLq = 70 ∧
    (after (.frameLinkStatistics 0xC8 [0x64, 0x5F, 0x5A, 0xF6, 0x01, 0x02, 0x03, 0x50, 0x46, 0x05] 0xDB 5)
      State.reset).ls.upSnr.toInt = -10 := by decide +kernel
/-- `<BT1>`: the timestamp, and no error. -/
theorem test_frameBt :
    (after (.frameBatterySensor 0xC8 [0x00, 0x7E, 0x00, 0x99, 0x00, 0x08, 0x98, 0x57] 0xC3 5)
      State.reset).lastValidTs = 5 ∧
    (after (.frameBatterySensor 0xC8 [0x00, 0x7E, 0x00, 0x99, 0x00, 0x08, 0x98, 0x57] 0xC3 5)
      State.reset).out.errors = [] := by decide +kernel
/-- `<RCSHORT>`: known type, wrong size; and an illegal LEN. -/
theorem test_frameOther :
    (after (.frameOther 0xC8 4 [0x16, 0, 0, 0xB9] 5) State.reset).out.errors = [.wrongSize] ∧
      (after (.frameOther 0xC8 0x3F [] 5) State.reset).out.errors = [.lenTooLong] := by decide +kernel

/-- The next step after `withFetchWord` runs the word. -/
theorem test_withFetchWord : step (State.reset.withFetchWord 8 0x9) = exec .isLinkUp State.reset :=
  step_run (s := State.reset.withFetchWord 8 0x9) (more := []) rfl (by decide +kernel)

/-- S6, S1: an operation is refused only where R112 and R76 say so, and the sequence goes on. -/
theorem test_runOps :
    (runOps [.frameRcChannelsPacked 0xC8 (List.replicate 22 0) 0xEF 10, .getChannel 0,
      .ctrlTick 1011 false [none, none, none, none]] State.reset).2 = [.linkUp, .channels, .linkDown] := by
  decide +kernel

/-! ## Witnesses: for each statement with hypotheses, a state and operands that meet them all

Where a statement has several cases, one witness meets each case at a boundary of its range. -/

theorem default_wf : (up 10).cfg.wf = true := Config.wf_default

/-- A state between frames with an empty buffer is good. -/
theorem inv_between_frames {s : State} (h1 : s.cfg.wf = true) (h2 : s.ch.length = s.cfg.nCh) (h3 : s.rxBuf = [])
    (h4 : s.rxState = .addr) (h5 : s.ch = List.replicate s.cfg.nCh s.cfg.chCenter)
    (h6 : s.cfg.fitsTime s.lastValidTs = true) : s.Inv := by
  obtain ⟨-, h7, h8, hlo, hhi, -⟩ := Config.wfRange_parts (Config.wf_range h1)
  exact ⟨h1, h2, fun v hv => by
    rw [h5] at hv
    rw [List.eq_of_mem_replicate hv]
    exact Config.fitsCh_between hlo hhi h7 h8, h6, by rw [h3]; rfl, fun _ _ => by rw [h3]; rfl, by simp [h4], by simp [h4], by simp [h4], by simp [h4]⟩

theorem up_shaped (ts : Time) : (up ts).StoreShaped :=
  ⟨rfl, (by decide : Config.default.wfRange = true), (by decide : Config.default.wfIndices = true)⟩

theorem up_inv (ts : Time) (h : ts < 2 ^ 32) : (up ts).Inv :=
  inv_between_frames Config.wf_default rfl rfl rfl rfl (Config.fitsTime_iff.2 h)

/-- The link `Down`, the last frame at time 10. -/
def down : State := { up 10 with linkUp := false }

theorem inChecksum_inv : inChecksum.Inv :=
  ⟨Config.wf_default, rfl, fun _ hv => (List.eq_of_mem_replicate hv).symm ▸ (by decide), (by decide), rfl,
    fun _ _ => rfl, fun _ => ⟨by decide, by decide⟩, (fun h => by cases h), fun _ => rfl,
    (fun _ => by decide +kernel)⟩

/-- The parser awaiting the LEN byte, the type byte, and the last payload byte the buffer can hold. -/
def inLen : State := { up 10 with rxState := .len }
def inType (len : Byte) : State := { up 10 with rxState := .type, rxLen := len }
def atBufferEnd : State := { up 10 with rxState := .payload, rxLen := 62, rxIdx := 59 }

theorem witness_AddressByteAccepted : (up 10).rxState = .addr := rfl
/-- LEN bytes 1, 2, 62 and 63: the two ends of both cases. -/
theorem witness_LengthByteChecked : inLen.rxState = .len ∧
    ((1 : Byte).toNat < 2 ∨ (1 : Byte).toNat - 2 > inLen.cfg.maxPayload) ∧
    ¬((2 : Byte).toNat < 2 ∨ (2 : Byte).toNat - 2 > inLen.cfg.maxPayload) ∧
    ¬((62 : Byte).toNat < 2 ∨ (62 : Byte).toNat - 2 > inLen.cfg.maxPayload) ∧
    ((63 : Byte).toNat < 2 ∨ (63 : Byte).toNat - 2 > inLen.cfg.maxPayload) := by decide
theorem witness_TypeByteStartsChecksum : (inType 2).rxState = .type ∧ (inType 2).rxLen = 2 ∧
    (inType 3).rxState = .type ∧ (inType 3).rxLen ≠ 2 := by decide
theorem witness_PayloadByteStored : inPayload.rxState = .payload ∧ inPayload.rxBuf.wf = true ∧
    inPayload.rxIdx < inPayload.cfg.maxPayload ∧ atBufferEnd.rxState = .payload ∧ atBufferEnd.rxBuf.wf = true ∧
    atBufferEnd.rxIdx < atBufferEnd.cfg.maxPayload := by decide
/-- The checksum byte 16 matches, 17 does not. -/
theorem witness_ChecksumByteDecides : inChecksum.Inv ∧ inChecksum.rxState = .crc ∧
    (0x16 : Byte) = crcFinal inChecksum.cfg inChecksum.rxCrc ∧
    (0x17 : Byte) ≠ crcFinal inChecksum.cfg inChecksum.rxCrc := ⟨inChecksum_inv, rfl, by decide, by decide⟩
theorem witness_RxTickIsRxByteInOrder : ∃ t u : State,
    exec (.rxByte 0x16 5) inChecksum = .next t ∧ exec (.rxTick [0xC8] 5) t = .next u :=
  ⟨_, _, exec_after (by decide +kernel), exec_after (by decide +kernel)⟩
theorem witness_ReceivingCompletes : (up 10).Inv ∧ inChecksum.Inv ∧ 4294967295 < 2 ^ (up 10).cfg.timeW :=
  ⟨up_inv 10 (by decide), inChecksum_inv, by decide⟩

/-- Empty and largest payloads; the checksum 16 of type 7F matches, 17 does not. -/
theorem witness_FrameAcceptedIffChecksumMatches : (up 10).cfg.wf = true ∧ (up 10).rxBuf.wf = true ∧
    (up 10).rxState = .addr ∧ ([] : List Byte).length ≤ (up 10).cfg.maxPayload ∧
    (List.replicate 60 (0 : Byte)).length ≤ (up 10).cfg.maxPayload ∧
    (0x16 : Byte) = crc8 (up 10).cfg [0x7F] ∧ (0x17 : Byte) ≠ crc8 (up 10).cfg [0x7F] :=
  ⟨default_wf, rfl, rfl, by decide, by decide, by decide +kernel, by decide +kernel⟩
/-- No byte, and all bytes but the checksum of a frame with one payload byte. -/
theorem witness_NoEffectBeforeChecksum : (up 10).cfg.wf = true ∧ (up 10).rxBuf.wf = true ∧
    (up 10).rxState = .addr ∧ ([9] : List Byte).length ≤ (up 10).cfg.maxPayload ∧
    0 < ([9] : List Byte).length + 4 ∧ 4 < ([9] : List Byte).length + 4 :=
  ⟨default_wf, rfl, rfl, by decide, by decide, by decide⟩
theorem witness_EncodedFrameIsReceivedBack : ∃ (v : State) (bs : List Byte), down.cfg = (up 10).cfg ∧
    (up 10).cfg.wf = true ∧ down.rxBuf.wf = true ∧ down.rxState = .addr ∧
    exec (.encode 0x08 [0, 0, 0, 0, 0, 0, 0, 0]) (up 10) = .next v ∧ v.out.result = .bytes bs :=
  ⟨_, _, rfl, default_wf, rfl, rfl, exec_after (by decide +kernel),
    (by decide +kernel : _ = Result.bytes [0xC8, 0x0A, 0x08, 0, 0, 0, 0, 0, 0, 0, 0, 0x6D])⟩
/-- A zero RC payload: checksum EF matches, EE does not. -/
theorem witness_RcFrameRowCompletes : down.cfg.wf = true ∧ down.rxBuf.wf = true ∧ down.rxState = .addr ∧
    (List.replicate 22 (0 : Byte)).length = down.cfg.rcPayload ∧
    (0xEF : Byte) = crc8 down.cfg (down.cfg.typeRc :: List.replicate 22 0) ∧
    (0xEE : Byte) ≠ crc8 down.cfg (down.cfg.typeRc :: List.replicate 22 0) :=
  ⟨default_wf, rfl, rfl, rfl, by decide +kernel, by decide +kernel⟩
theorem witness_LinkStatsFrameRowCompletes : down.cfg.wf = true ∧ down.rxBuf.wf = true ∧ down.rxState = .addr ∧
    ([0x64, 0x5F, 0x5A, 0, 0, 0, 0, 0, 0, 0] : List Byte).length = down.cfg.lsPayload ∧
    (0x61 : Byte) = crc8 down.cfg (down.cfg.typeLs :: [0x64, 0x5F, 0x5A, 0, 0, 0, 0, 0, 0, 0]) ∧
    (0x60 : Byte) ≠ crc8 down.cfg (down.cfg.typeLs :: [0x64, 0x5F, 0x5A, 0, 0, 0, 0, 0, 0, 0]) :=
  ⟨default_wf, rfl, rfl, rfl, by decide +kernel, by decide +kernel⟩
theorem witness_BatteryFrameRowCompletes : down.cfg.wf = true ∧ down.rxBuf.wf = true ∧ down.rxState = .addr ∧
    ([0, 0, 0, 0, 0, 0, 0, 0] : List Byte).length = down.cfg.btPayload ∧
    (0x6D : Byte) = crc8 down.cfg (down.cfg.typeBt :: [0, 0, 0, 0, 0, 0, 0, 0]) ∧
    (0x6C : Byte) ≠ crc8 down.cfg (down.cfg.typeBt :: [0, 0, 0, 0, 0, 0, 0, 0]) :=
  ⟨default_wf, rfl, rfl, rfl, by decide +kernel, by decide +kernel⟩
/-- An illegal LEN; `<UNK0>` with its checksum and with another; `<RCSHORT>`. -/
theorem witness_OtherFrameRowCompletes : down.cfg.wf = true ∧ down.rxBuf.wf = true ∧ down.rxState = .addr ∧
    (Instr.frameOther 0xC8 63 [] 5).wf down.cfg = true ∧
    (Instr.frameOther 0xC8 2 (0x7F :: ([] ++ [0x16])) 5).wf down.cfg = true ∧
    (0x16 : Byte) = crc8 down.cfg (0x7F :: []) ∧ (0x17 : Byte) ≠ crc8 down.cfg (0x7F :: []) ∧
    (Instr.frameOther 0xC8 4 (0x16 :: ([0, 0] ++ [0xB9])) 5).wf down.cfg = true ∧
    (0xB9 : Byte) = crc8 down.cfg (0x16 :: [0, 0]) :=
  ⟨default_wf, rfl, rfl, by decide +kernel, by decide +kernel, by decide +kernel, by decide +kernel,
    by decide +kernel, by decide +kernel⟩

/-- A pair of TYPE_TABLE and a pair that is not in it. -/
theorem witness_EncodeReturnsFrameOrError :
    ((0x08 : Byte), (List.replicate 8 (0 : Byte)).length) ∈ (up 10).cfg.typeTable ∧
      ((0x08 : Byte), (List.replicate 9 (0 : Byte)).length) ∉ (up 10).cfg.typeTable := by decide
/-- Under R66's layout and under another. -/
theorem witness_SendBatteryTransmitsFields : (up 10).cfg.wf = true ∧ (up 10).cfg.btLayout = {} ∧
    (State.powerOn other).cfg.wf = true := ⟨default_wf, rfl, test_wf_accepts_other⟩
/-- The first bit of the first field, the last bit of the last. -/
theorem witness_RcFieldBits : Config.default.wf = true ∧ 0 < Config.default.nCh ∧ 0 < Config.default.chBits ∧
    15 < Config.default.nCh ∧ 10 < Config.default.chBits ∧ (List.replicate 16 (1500 : Int)).length = Config.default.nCh ∧
    Config.default.rcLayout = List.range (Config.default.nCh * Config.default.chBits) ∧ other.wf = true :=
  ⟨Config.wf_default, by decide, by decide, by decide, by decide, rfl, rfl, test_wf_accepts_other⟩
theorem witness_RcLayoutIsLittleEndianInteger :
    Config.default.rcLayout = List.range (Config.default.nCh * Config.default.chBits) ∧
      Config.default.nCh * Config.default.chBits = 8 * Config.default.rcPayload ∧
      (List.replicate 16 (2047 : Int)).length = Config.default.nCh ∧
      ∀ v ∈ List.replicate 16 (2047 : Int), chToWire Config.default v < 2 ^ Config.default.chBits :=
  ⟨rfl, rfl, rfl, fun v hv => by rw [List.eq_of_mem_replicate hv]; decide +kernel⟩
theorem witness_UnpackAfterPack : Config.default.wf = true ∧ Config.default.wireOverrides = [] ∧
    Config.default.chOverrides = [] ∧ (List.replicate 16 (2047 : Int)).length = Config.default.nCh ∧
    ∀ v ∈ List.replicate 16 (2047 : Int), 0 ≤ v ∧ v < 2 ^ Config.default.chBits :=
  ⟨Config.wf_default, rfl, rfl, rfl, (fun v hv => by rw [List.eq_of_mem_replicate hv]; decide +kernel)⟩
theorem witness_LinkStatsFieldsInPayloadOrder : Config.default.lsLayout = {} := rfl
theorem witness_SendChannelsEchoesReceivedFrame : down.cfg.wf = true ∧ down.rxBuf.wf = true ∧
    down.rxState = .addr ∧ (List.replicate 22 (0xFF : Byte)).length = down.cfg.rcPayload :=
  ⟨default_wf, rfl, rfl, rfl⟩
/-- Indices 1 and 16 name entries, 0 and 17 do not. -/
theorem witness_SetChannelSaturates : (up 10).StoreShaped ∧ (1 ≤ 1 ∧ 1 ≤ (up 10).cfg.nCh) ∧ (1 ≤ 16 ∧ 16 ≤ (up 10).cfg.nCh) ∧
    ¬(1 ≤ 0 ∧ 0 ≤ (up 10).cfg.nCh) ∧ ¬(1 ≤ 17 ∧ 17 ≤ (up 10).cfg.nCh) :=
  ⟨up_shaped 10, by decide, by decide, by decide, by decide⟩
theorem witness_GetChannelReadsEntry : (up 10).ch.length = (up 10).cfg.nCh ∧
    (1 ≤ 16 ∧ 16 ≤ (up 10).cfg.nCh ∧ 16 - 1 < (up 10).ch.length) ∧
    ¬(1 ≤ 17 ∧ 17 ≤ (up 10).cfg.nCh ∧ 17 - 1 < (up 10).ch.length) := by decide
theorem witness_ResetRestoresSpecifiedState : (up 10).cfg.wfRange = true ∧ 1 ≤ 16 ∧ 16 ≤ (up 10).cfg.nCh := by
  decide
theorem witness_ResetLeavesBoundary : ∃ t : State, exec .reset (up 10) = .next t := ⟨_, rfl⟩

/-- A tick with an available and an unavailable sample, and one without the mode. -/
theorem witness_ControlTickCompletes : (up 10).StoreShaped ∧
    (Instr.ctrlTick 11 true [some 0x7FFF, none, some 0x8000, none]).wf (up 10).cfg = true ∧
    (Instr.ctrlTick 11 false [none, none, none, none]).wf (up 10).cfg = true :=
  ⟨up_shaped 10, by decide +kernel, by decide +kernel⟩
/-- Elapsed 1000 does not exceed the threshold, elapsed 1001 does, across the wrap of the clock too. -/
theorem witness_LinkTimeoutIsStrict : (up 0xFFFFFF00).StoreShaped ∧
    (Instr.ctrlTick 0x2E9 false [none, none, none, none]).wf (up 0xFFFFFF00).cfg = true ∧
    ((up 0xFFFFFF00).linkUp = true ∧
      ((up 0xFFFFFF00).cfg.tFs1 : Int) < ((0x2E9 : Int) - (up 0xFFFFFF00).lastValidTs) % 2 ^ (up 0xFFFFFF00).cfg.timeW) ∧
    ¬((up 0xFFFFFF00).linkUp = true ∧
      ((up 0xFFFFFF00).cfg.tFs1 : Int) < ((0x2E8 : Int) - (up 0xFFFFFF00).lastValidTs) % 2 ^ (up 0xFFFFFF00).cfg.timeW) :=
  ⟨up_shaped _, by decide +kernel, by decide, by decide⟩
theorem witness_TickPublishesDrives : (up 10).StoreShaped ∧
    (Instr.ctrlTick 11 true [some 0x7FFF, none, none, none]).wf (up 10).cfg = true ∧ (up 10).cfg.mixKind = .diff :=
  ⟨up_shaped 10, by decide +kernel, rfl⟩

/-- The default machine with servo outputs. -/
def servo : State := State.powerOn { Config.default with mixKind := .servo }

theorem servo_shaped : servo.StoreShaped := ⟨rfl, by decide, by decide⟩

theorem witness_TickPublishesPulses : servo.StoreShaped ∧
    (Instr.ctrlTick 11 false [none, none, none, none]).wf servo.cfg = true ∧ servo.cfg.mixKind = .servo :=
  ⟨servo_shaped, by decide +kernel, rfl⟩
/-- Down from the start, and a link that this tick lowers. -/
theorem witness_SafeOutputWhileDown : (down.StoreShaped ∧ down.linkUp = false) ∧
    (up 10).StoreShaped ∧ ((up 10).cfg.tFs1 : Int) < ((1011 : Int) - (up 10).lastValidTs) % 2 ^ (up 10).cfg.timeW :=
  ⟨⟨up_shaped 10, rfl⟩, up_shaped 10, by decide⟩
/-- Two states that differ in time, statistics and samples. -/
theorem witness_MixDependsOnStoreAndLinkOnly : ∃ u₁ u₂ : State,
    exec (.ctrlTick 11 false []) (up 10) = .next u₁ ∧
      exec (.ctrlTick 12 true [none]) { up 9 with ls := { upLq := 3 } } = .next u₂ ∧
      (up 10).cfg = (up 9).cfg ∧ u₁.linkUp = u₂.linkUp ∧ u₁.ch = u₂.ch :=
  ⟨_, _, exec_after (by decide +kernel), exec_after (by decide +kernel), rfl, by decide +kernel, by decide +kernel⟩
/-- Both ends of the axis and its middle. -/
theorem witness_AxisMappingTruncatesOnce : Config.default.wfRange = true ∧ 0 < Config.default.axisMax ∧
    Config.default.axisMin < 0 ∧ 32767 = Config.default.axisMax ∧
    -32768 = Config.default.axisMin ∧ (0 : Int) ≤ 0 ∧ (-1 : Int) < 0 :=
  ⟨by decide, by decide, by decide, rfl, rfl, by decide, by decide⟩
/-- Both sides of the threshold. -/
theorem witness_DeadbandIsExactAtThreshold : |(-9 : Int)| < Config.default.dbThresh ∧
    (Config.default.dbThresh : Int) ≤ |(-10 : Int)| := by decide
theorem witness_DutyWithinScale : 0 < Config.default.chHalf ∧ ∃ (u : State) (l r : Drive),
    exec (.ctrlTick 11 false []) (up 10) = .next u ∧ u.out.mix = some (.diff l r) :=
  ⟨by decide, _, ⟨false, 0⟩, ⟨false, 0⟩, exec_after (by decide +kernel), by decide +kernel⟩

theorem witness_CrcDetectsOneByteError : Config.default.crcPoly.getLsbD 0 = true ∧ (0x01 : Byte) ≠ 0x81 := by decide
theorem witness_CrcResidueIsZero : Config.default.crcRefIn = false ∧ Config.default.crcRefOut = false ∧
    Config.default.crcXorOut = 0 := by decide
/-- A port row, a wire row and FRAME_OTHER in both its forms. -/
theorem witness_DecodeOfEncode : Config.default.wf = true ∧
    (Instr.ctrlTick 11 true [some 0x8000, none, none, none]).wf Config.default = true ∧
    (Instr.frameRcChannelsPacked 1 (List.replicate 22 9) 0 5).wf Config.default = true ∧
    (Instr.frameOther 0xC8 63 [] 5).wf Config.default = true ∧
    (Instr.frameOther 0xC8 2 [0x7F, 0x16] 5).wf Config.default = true :=
  ⟨Config.wf_default, by decide +kernel, by decide +kernel, by decide +kernel, by decide +kernel⟩
theorem witness_EncodeOfDecodedPort :
    decode Config.default (.port 0x4 [3, 1234]) = .ok (.setChannel 3 1234, []) ∧
      (0x4 : Sel) ∉ ([0x0, 0xB, 0xC, 0xD, 0xE] : List Sel) := by decide +kernel
theorem witness_WireDecodeKeepsEveryByte : Config.default.wf = true ∧ 4294967295 < 2 ^ Config.default.timeW :=
  ⟨Config.wf_default, by decide⟩
/-- A presentation that decodes, and one that does not. -/
theorem witness_StepRunsDecodedInstruction :
    ({ up 10 with pending := [.port 0x9 []] } : State).pending = [.port 0x9 []] ∧
      decode (up 10).cfg (.port 0x9 []) = .ok (.isLinkUp, []) ∧
      decode (up 10).cfg (.port 0x9 [1]) = .error .operandSurplus := by decide +kernel
theorem witness_IdleStepKeepsAllState : (up 10).pending = [] := rfl
/-- Two frames in one presentation, and a byte of a third. -/
def twoFrames : State := { up 10 with pending := [.wire [0xC8, 2, 0x7F, 0x16, 0xC8, 2, 0x7F, 0x16, 0xC8] 5] }

theorem twoFrames_inv : twoFrames.Inv := inv_between_frames Config.wf_default rfl rfl rfl rfl (by decide)

theorem witness_WireStepsRefineRxTick : twoFrames.Inv ∧ 5 < 2 ^ twoFrames.cfg.timeW ∧
    twoFrames.pending = [.wire [0xC8, 2, 0x7F, 0x16, 0xC8, 2, 0x7F, 0x16, 0xC8] 5] := ⟨twoFrames_inv, by decide, rfl⟩

/-- A presented SET_CHANNEL, stepped. -/
def setting : State := { up 10 with pending := [.port 0x4 [1, 2500]] }

theorem setting_inv : setting.Inv := inv_between_frames Config.wf_default rfl rfl rfl rfl (by decide)
theorem setting_decodes : decode setting.cfg (.port 0x4 [1, 2500]) = .ok (.setChannel 1 2500, []) := by decide +kernel
theorem setting_steps : ∃ t : State, step setting = .next t :=
  ⟨_, (step_run (s := setting) (p := .port 0x4 [1, 2500]) (rest := []) rfl setting_decodes).trans
    (exec_after (by decide +kernel))⟩

theorem witness_StepKeepsInvariants : setting.Inv ∧ ∃ t : State, step setting = .next t := ⟨setting_inv, setting_steps⟩
theorem witness_NoStepFaults : setting.Inv ∧ twoFrames.Inv := ⟨setting_inv, twoFrames_inv⟩
theorem witness_ChannelRangeKept : setting.Inv ∧ setting.cfg.wireOverrides = [] ∧ setting.ChannelRange ∧
    ∃ t : State, step setting = .next t := by
  refine ⟨setting_inv, rfl, ?_, setting_steps⟩
  intro v hv
  rw [List.eq_of_mem_replicate hv]
  exact ⟨by decide, by decide⟩
theorem witness_NoStepChangesParameters : ∃ t : State, step setting = .next t := setting_steps

/-- A frame raises the link at 10, a tick lowers it at 1011. -/
def flight : List Instr :=
  [.frameRcChannelsPacked 0xC8 (List.replicate 22 0) 0xEF 10, .ctrlTick 1011 false [none, none, none, none]]

theorem witness_LinkNotificationsAlternate : Instr.reset ∉ flight := by decide
theorem witness_TimestampComesFromReceive : down.linkUp = false ∧ Instr.reset ∉ flight.take 1 ∧
    (runOps (flight.take 1) down).1.linkUp = true := by decide +kernel
theorem witness_OnlyReceivingRaisesLink : ∃ t : State,
    exec (.frameRcChannelsPacked 0xC8 (List.replicate 22 0) 0xEF 11) down = .next t ∧ down.linkUp = false ∧
      t.linkUp = true := ⟨_, exec_after (by decide +kernel), rfl, by decide +kernel⟩
/-- RESET, and a tick that finds the threshold exceeded. -/
theorem witness_OnlyTimeoutOrResetLowersLink : (∃ t : State, exec .reset (up 10) = .next t ∧
      (up 10).linkUp = true ∧ t.linkUp = false) ∧
    ∃ t : State, exec (.ctrlTick 1011 false []) (up 10) = .next t ∧ t.linkUp = false :=
  ⟨⟨_, rfl, rfl, rfl⟩, _, exec_after (by decide +kernel), by decide +kernel⟩
theorem witness_ObserverChangesNothing : Agent.observer.issues (.getChannel 16) = true ∧
    ∃ t : State, exec (.getChannel 16) (up 10) = .next t := ⟨rfl, _, exec_after (by decide +kernel)⟩
theorem witness_ReceiveActivityFrame : Agent.receive.issues (.rxByte 0x16 5) = true ∧
    ∃ t : State, exec (.rxByte 0x16 5) inChecksum = .next t := ⟨rfl, _, exec_after (by decide +kernel)⟩
theorem witness_ControlActivityFrame : Agent.control.issues (.sendBattery 0 0 0 0) = true ∧
    ∃ t : State, exec (.sendBattery 0 0 0 0) (up 10) = .next t := ⟨rfl, _, exec_after (by decide +kernel)⟩

end Sys2Proof.Tests
end

/-!
PROOF. What receiving does to the state: the checksum register's part of the invariants (10_state.md R22 item 3), the
invariants through every received byte, and what received bytes do outside the parser.
-/

namespace Sys2Proof.Machine

/-! ## The checksum register (40_frame_codec.md R90, R91) -/

theorem getElem_bit (p : Bool) {k : Nat} (hk : k < 8) : (if p then 1#8 else 0#8)[k] = (p && decide (k = 0)) := by
  cases p <;> simp [BitVec.getElem_one]

/-- Reflection is the library's bit reversal. -/
theorem reflect_eq_reverse (b : Byte) : reflect b = b.reverse := by
  refine BitVec.eq_of_getLsbD_eq fun i hi => ?_
  interval_cases i <;> simp [reflect, List.range_succ, getElem_bit, BitVec.getElem_reverse, BitVec.getMsbD]

theorem reflect_injective : Function.Injective reflect := fun x y h => by
  rw [reflect_eq_reverse, reflect_eq_reverse] at h
  simpa using congrArg BitVec.reverse h

/-- A checksum determines the register value behind it, so R22 item 3 fixes the register. -/
theorem crcFinal_injective (c : Config) : Function.Injective (crcFinal c) := fun x y h => by
  have h : (if c.crcRefOut then reflect x else x) = if c.crcRefOut then reflect y else y :=
    (BitVec.xor_left_inj c.crcXorOut).1 h
  cases hr : c.crcRefOut <;> simp only [hr, if_true, Bool.false_eq_true, if_false] at h
  · exact h
  · exact reflect_injective h

/-- One more byte into a register that stands for the checksum of `bs`. -/
theorem crcFinal_crc8Byte {c : Config} {r : Byte} {bs : List Byte} (b : Byte) (h : crcFinal c r = crc8 c bs) :
    crcFinal c (crc8Byte c r b) = crc8 c (bs ++ [b]) := by
  have hr : r = crcRun c c.crcInit bs := crcFinal_injective c h
  simp only [crc8, hr, crcRun, List.foldl_append, List.foldl_cons, List.foldl_nil]

/-- The first `n + 1` bytes of the buffer, after byte `n` is stored behind the first `n` (R97). -/
theorem Memory.read_range_write {m : Memory} (hm : m.wf = true) (n : Nat) (b : Byte) :
    (List.range (n + 1)).map (m.write n b).read = (List.range n).map m.read ++ [b] := by
  have h : ∀ k ∈ List.range n, (m.write n b).read k = m.read k := fun k hk =>
    Memory.read_write_other m b (List.mem_range.1 hk).ne
  rw [List.range_succ, List.map_append, List.map_congr_left h, List.map_singleton, Memory.read_write_same hm]

theorem unpackRc_fits {c : Config} {payload : List Byte} {v : Int} (h : v ∈ unpackRc c payload) :
    c.fitsCh v = true := by
  obtain ⟨w, -, rfl⟩ := List.mem_map.1 h
  exact c.fitsCh_toCh _

/-! ## The invariants through received bytes -/

/-- Between frames and before the LEN byte, the invariants ask nothing of the parser's registers. -/
theorem State.Inv.of_between {s t : State} (h : s.Inv) (hst : t.rxState = .addr ∨ t.rxState = .len)
    (hcfg : t.cfg = s.cfg) (hbuf : t.rxBuf = s.rxBuf) (hlen : t.ch.length = s.cfg.nCh)
    (hch : ∀ v ∈ t.ch, s.cfg.fitsCh v = true) (hts : s.cfg.fitsTime t.lastValidTs = true) : t.Inv where
  cfgWf := hcfg ▸ h.cfgWf
  chLength := hcfg ▸ hlen
  chFits := hcfg ▸ hch
  timeFits := hcfg ▸ hts
  bufWf := hbuf ▸ h.bufWf
  bufBound := by rw [hcfg, hbuf]; exact h.bufBound
  lenBound hs := by rcases hst with e | e <;> simp [e] at hs
  idxPayload hs := by rcases hst with e | e <;> simp [e] at hs
  idxCrc hs := by rcases hst with e | e <;> simp [e] at hs
  crcRegister hs := by rcases hst with e | e <;> simp [e] at hs

/-- The type byte (R96): the register starts over it, and an empty payload goes straight to the checksum. -/
theorem State.Inv.rxTypeByte {s : State} (h : s.Inv) (b : Byte) (hs : s.rxState = .type) : (s.rxTypeByte b).Inv :=
  { h with
    lenBound := fun _ => h.lenBound (.inl hs)
    idxPayload := fun ht => by
      obtain ⟨h2, -⟩ := h.lenBound (.inl hs)
      have hne : s.rxLen ≠ 2 := fun e => by simp [e] at ht
      have : s.rxLen.toNat ≠ 2 := fun e => hne (BitVec.eq_of_toNat_eq e)
      simp only [State.rxTypeByte_rxIdx, State.rxTypeByte_rxLen]
      omega
    idxCrc := fun ht => by
      have he : s.rxLen = 2 := by by_contra hne; rw [State.rxTypeByte_rxState, if_neg hne] at ht; cases ht
      simp [he]
    crcRegister := fun _ => rfl }

/-- A payload byte (R97): it is stored below `MAX_PAYLOAD` and enters the checksum register. -/
theorem State.Inv.payloadByte {s : State} (h : s.Inv) (b : Byte) (hs : s.rxState = .payload) :
    State.Inv { s with
      rxBuf := s.rxBuf.write s.rxIdx b, rxCrc := crc8Byte s.cfg s.rxCrc b, rxIdx := s.rxIdx + 1,
      rxState := if s.rxIdx + 1 = s.rxLen.toNat - 2 then .crc else .payload } := by
  have hlen := h.lenBound (.inr (.inl hs))
  have hidx := h.idxPayload hs
  have hcrc := crcFinal_crc8Byte b (h.crcRegister (.inl hs))
  rw [List.cons_append, State.received, ← Memory.read_range_write h.bufWf] at hcrc
  exact { h with
    bufWf := Memory.write_wf h.bufWf _ _
    bufBound := fun a ha => by
      have ha : s.cfg.maxPayload ≤ a := ha
      exact (Memory.read_write_other _ _ (by omega)).trans (h.bufBound a ha)
    lenBound := fun _ => hlen
    idxPayload := fun ht => by
      have hne : s.rxIdx + 1 ≠ s.rxLen.toNat - 2 := fun e => by rw [if_pos e] at ht; cases ht
      exact lt_of_le_of_ne hidx hne
    idxCrc := fun ht => by
      by_contra hne
      rw [if_neg hne] at ht
      cases ht
    crcRegister := fun _ => hcrc }

/-- A dispatched frame (R130 to R135) leaves the parser alone and keeps the store's shape. -/
theorem State.Inv.frameIn {s : State} (h : s.Inv) (f : Frame) {now : Time} (hs : s.rxState = .addr)
    (hnow : s.cfg.fitsTime now = true) : (s.frameIn f now).Inv := by
  rw [State.frameIn_eq]
  refine h.of_between (.inl hs) rfl rfl ?_ ?_ hnow
  · cases rcHit s.cfg f
    · exact h.chLength
    · exact unpackRc_length _ _
  · cases rcHit s.cfg f
    · exact h.chFits
    · exact fun _ => unpackRc_fits

/-- Every received byte keeps the invariants. -/
theorem State.Inv.rxOne {s t : State} {b : Byte} {now : Time} (h : s.Inv) (hnow : s.cfg.fitsTime now = true)
    (ht : s.rxOne b now = .ok t) : t.Inv := by
  have between {u : State} (hu : u.rxState = .addr ∨ u.rxState = .len)
      (e : u = { s with rxState := u.rxState, rxAddr := u.rxAddr, out := u.out }) : u.Inv := by
    refine h.of_between hu ?_ ?_ ?_ ?_ ?_ <;> rw [e]
    exacts [h.chLength, h.chFits, h.timeFits]
  rcases State.rxOne_cases ht with ⟨-, rfl⟩ | ⟨-, -, rfl⟩ | ⟨-, hl, rfl⟩ | ⟨hs, rfl⟩ | ⟨hs, -, rfl⟩ |
    ⟨-, -, rfl⟩ | ⟨-, -, -, rfl⟩
  case inr.inr.inl =>
    obtain ⟨h2, hmax⟩ := lenLegal_iff.1 hl
    exact { h with
      lenBound := fun _ => ⟨h2, by simp only; omega⟩
      idxPayload := fun hs => by cases hs
      idxCrc := fun hs => by cases hs
      crcRegister := fun hs => by simp at hs }
  · exact between (.inr rfl) rfl
  · exact between (.inl rfl) rfl
  · exact h.rxTypeByte b hs
  · exact h.payloadByte b hs
  · exact between (.inl rfl) rfl
  · exact (between (u := { s with rxState := .addr }) (.inl rfl) rfl).frameIn _ rfl hnow

/-- From a good state every byte is received (R93: "The operation is total"). -/
theorem State.Inv.rxOne_total {s : State} (h : s.Inv) (b : Byte) (now : Time) : ∃ t, s.rxOne b now = .ok t := by
  cases hs : s.rxState
  · exact ⟨_, State.rxOne_addr b now hs⟩
  · cases hl : lenLegal s.cfg b
    · exact ⟨_, State.rxOne_len_bad now hs hl⟩
    · exact ⟨_, State.rxOne_len_ok now hs hl⟩
  · exact ⟨_, State.rxOne_type b now hs⟩
  · have hlen := h.lenBound (.inr (.inl hs))
    have hidx := h.idxPayload hs
    exact ⟨_, State.rxOne_payload b now hs (by omega)⟩
  · by_cases hb : b = crcFinal s.cfg s.rxCrc
    · have hlen := h.lenBound (.inr (.inr hs))
      exact ⟨_, State.rxOne_crc_match now hs hb (by omega)⟩
    · exact ⟨_, State.rxOne_crc_mismatch now hs hb⟩

/-- Received bytes complete, in a good state. -/
theorem State.Inv.rxMany_total {s : State} (h : s.Inv) {now : Time} (hnow : s.cfg.fitsTime now = true)
    (bs : List Byte) : ∃ t, s.rxMany now bs = .ok t ∧ t.Inv := by
  induction bs generalizing s with
  | nil => exact ⟨s, rfl, h⟩
  | cons b bs ih =>
    obtain ⟨u, hu⟩ := h.rxOne_total b now
    obtain ⟨hcfg, -⟩ := State.rxOne_boundary hu
    obtain ⟨t, ht, hinv⟩ := ih (h.rxOne hnow hu) (hcfg ▸ hnow)
    exact ⟨t, by simp only [State.rxMany, hu, ht], hinv⟩

theorem State.Inv.rxMany {s t : State} {bs : List Byte} {now : Time} (h : s.Inv) (hnow : s.cfg.fitsTime now = true)
    (ht : s.rxMany now bs = .ok t) : t.Inv := by
  obtain ⟨u, hu, hinv⟩ := h.rxMany_total hnow bs
  cases hu.symm.trans ht
  exact hinv

/-! ## What received bytes do outside the parser -/

/-- Everything received bytes can do to the store, the link and the timestamp: the store is replaced as a whole or
not at all, the link is never lowered, and a link or timestamp that changes goes with the timestamp `now`. -/
structure ReceiveEffect (now : Time) (s t : State) : Prop where
  cfg : t.cfg = s.cfg
  channels : t.ch = s.ch ∨ ∃ payload, t.ch = unpackRc s.cfg payload
  link : s.linkUp = true → t.linkUp = true
  stamp : (t.lastValidTs = s.lastValidTs ∧ t.linkUp = s.linkUp) ∨ t.lastValidTs = now

theorem ReceiveEffect.refl (now : Time) (s : State) : ReceiveEffect now s s :=
  ⟨rfl, .inl rfl, id, .inl ⟨rfl, rfl⟩⟩

theorem ReceiveEffect.trans {now : Time} {s t u : State} (h : ReceiveEffect now s t) (g : ReceiveEffect now t u) :
    ReceiveEffect now s u where
  cfg := g.cfg.trans h.cfg
  channels := by
    rcases g.channels with e | ⟨p, e⟩
    · rw [e]
      exact h.channels
    · exact .inr ⟨p, by rw [e, h.cfg]⟩
  link := fun hs => g.link (h.link hs)
  stamp := by
    rcases g.stamp with ⟨ets, elink⟩ | e
    · rw [ets, elink]
      exact h.stamp
    · exact .inr e

theorem State.frameIn_effect (f : Frame) (now : Time) (s : State) : ReceiveEffect now s (s.frameIn f now) := by
  rw [State.frameIn_eq]
  refine ⟨rfl, ?_, fun hs => by simp [hs], .inr rfl⟩
  cases rcHit s.cfg f
  · exact .inl rfl
  · exact .inr ⟨_, rfl⟩

theorem State.rxOne_effect {b : Byte} {now : Time} {s t : State} (h : s.rxOne b now = .ok t) :
    ReceiveEffect now s t := by
  rcases State.rxOne_cases h with ⟨-, rfl⟩ | ⟨-, -, rfl⟩ | ⟨-, -, rfl⟩ | ⟨-, rfl⟩ | ⟨-, -, rfl⟩ |
    ⟨-, -, rfl⟩ | ⟨-, -, -, rfl⟩
  case inr.inr.inr.inr.inr.inr =>
    obtain ⟨hcfg, hch, hlink, hts⟩ := State.frameIn_effect (s.frameOf b) now { s with rxState := .addr }
    exact ⟨hcfg, hch, hlink, hts⟩
  all_goals exact ⟨rfl, .inl rfl, id, .inl ⟨rfl, rfl⟩⟩

theorem State.rxMany_effect {bs : List Byte} {now : Time} {s t : State} (h : s.rxMany now bs = .ok t) :
    ReceiveEffect now s t := by
  induction bs generalizing s with
  | nil =>
    cases h
    exact .refl now _
  | cons b bs ih =>
    simp only [State.rxMany] at h
    split at h
    · cases h
    · rename_i u hu
      exact (State.rxOne_effect hu).trans (ih h)

end Sys2Proof.Machine

/-!
PROOF. What the decoder gives and what every operation can do: each operation receives bytes, resets the block, or
writes the Channel Store within `[CH_MIN, CH_MAX]` and leaves the parser, the timestamp and the statistics alone.
-/

namespace Sys2Proof

open Sys2Proof.Machine

/-! ## What is decoded is well-formed -/

theorem lanesRxByte_wf {c : Config} {xs : List Int} {i : Instr} (h : lanesRxByte c xs = .ok i) : i.wf c = true := by
  unfold lanesRxByte at h
  split at h
  · split at h
    · rename_i ht
      cases h
      exact (laneTime_ok ht).2
    all_goals cases h
  all_goals cases h

theorem lanesRxTick_wf {c : Config} {xs : List Int} {i : Instr} (h : lanesRxTick c xs = .ok i) : i.wf c = true := by
  unfold lanesRxTick at h
  split at h
  case h_2 =>
    split at h
    · rename_i ht
      cases h
      exact (laneTime_ok ht).2
    · cases h
  all_goals cases h

theorem lanesCtrlTick_wf {c : Config} {xs : List Int} {i : Instr} (h : lanesCtrlTick c xs = .ok i) :
    i.wf c = true := by
  unfold lanesCtrlTick at h
  split at h
  · split at h
    · rename_i ht _ hs
      cases h
      obtain ⟨hlen, hlegal, -⟩ := takeSamples_ok hs
      simp only [Instr.wf, (laneTime_ok ht).2, hlen, hlegal, decide_true, Bool.and_self]
    all_goals cases h
  · cases h

theorem noLanes_ok {i j : Instr} {xs : List Int} (h : noLanes i xs = .ok j) : j = i := by
  cases xs <;> cases h
  rfl

theorem lanesSetChannel_ok {xs : List Int} {i : Instr} (h : lanesSetChannel xs = .ok i) :
    ∃ k v, i = .setChannel k v := by
  unfold lanesSetChannel at h
  grind

theorem lanesGetChannel_ok {xs : List Int} {i : Instr} (h : lanesGetChannel xs = .ok i) : ∃ k, i = .getChannel k := by
  unfold lanesGetChannel at h
  grind

theorem lanesEncode_ok {xs : List Int} {i : Instr} (h : lanesEncode xs = .ok i) : ∃ t p, i = .encode t p := by
  unfold lanesEncode at h
  grind

theorem lanesSendBattery_ok {xs : List Int} {i : Instr} (h : lanesSendBattery xs = .ok i) :
    ∃ mv ma mah pct, i = .sendBattery mv ma mah pct := by
  unfold lanesSendBattery at h
  grind

/-- What the operation port's decoder answers is well-formed (30_encoding.md R75). -/
theorem decodePort_wf {c : Config} {op : Sel} {xs : List Int} {i : Instr} (h : decodePort c op xs = .ok i) :
    i.wf c = true := by
  unfold decodePort at h
  split at h
  case h_2 => exact lanesRxByte_wf h
  case h_3 => exact lanesRxTick_wf h
  case h_4 => exact lanesCtrlTick_wf h
  case h_5 => obtain ⟨_, _, rfl⟩ := lanesSetChannel_ok h; rfl
  case h_6 => obtain ⟨_, rfl⟩ := lanesGetChannel_ok h; rfl
  case h_8 => obtain ⟨_, _, rfl⟩ := lanesEncode_ok h; rfl
  case h_9 => obtain ⟨_, _, _, _, rfl⟩ := lanesSendBattery_ok h; rfl
  case h_7 | h_10 | h_11 | h_16 => cases noLanes_ok h; rfl
  all_goals cases h; rfl

/-- A well-formed receive operation carries a time of `TIME_W` bits. -/
theorem Instr.fitsTime_of_wf {c : Config} {i : Instr} {now : Time} (h : i.wf c = true)
    (ht : receiveTime i = some now) : c.fitsTime now = true := by
  cases i <;> cases ht <;> simp only [Instr.wf, Bool.and_eq_true] at h
  case rxByte | rxTick => exact h
  all_goals exact h.1

theorem classifyFrame_receiveTime (c : Config) (a len t : Byte) (rest : List Byte) (now : Time) :
    receiveTime (classifyFrame c a len t rest now) = some now := by
  unfold classifyFrame
  repeat' split
  all_goals rfl

/-- Whatever wire bytes decode to carries the time of the bytes. -/
theorem decodeWire_receiveTime (c : Config) (bytes : List Byte) (now : Time) :
    receiveTime (decodeWire c bytes now).1 = some now := by
  unfold decodeWire
  split
  · split
    · split
      · split
        · rfl
        · exact classifyFrame_receiveTime ..
      · rfl
    · rfl
  · rfl

/-- A decoded receive operation carries a time of `TIME_W` bits (00_scope.md R9). -/
theorem decode_fitsTime {c : Config} {p : Presented} {i : Instr} {more : List Presented} {now : Time}
    (h : decode c p = .ok (i, more)) (ht : receiveTime i = some now) : c.fitsTime now = true := by
  cases p with
  | port op xs =>
    simp only [decode] at h
    split at h
    · rename_i hd
      cases h
      exact Instr.fitsTime_of_wf (decodePort_wf hd) ht
    · cases h
  | wire bytes n =>
    simp only [decode] at h
    split at h
    · rename_i hn
      cases h
      rw [decodeWire_receiveTime] at ht
      cases ht
      exact hn
    · cases h

end Sys2Proof

namespace Sys2Proof.Machine

/-! ## Writes to the Channel Store by the control activity (R111, R150) -/

/-- The store of `t` is that of `s` but for entries saturated to `[CH_MIN, CH_MAX]` (R111, R154). -/
def StoreWritten (s t : State) : Prop :=
  t.ch.length = s.ch.length ∧
    ∀ v ∈ t.ch, v ∈ s.ch ∨ ∃ x, v = s.cfg.toCh (sat x s.cfg.chMin s.cfg.chMax)

theorem StoreWritten.of_eq {s t : State} (h : t.ch = s.ch) : StoreWritten s t := by
  rw [StoreWritten, h]
  exact ⟨rfl, fun _ => .inl⟩

theorem StoreWritten.trans {s t u : State} (h : StoreWritten s t) (hc : t.cfg = s.cfg) (g : StoreWritten t u) :
    StoreWritten s u := by
  refine ⟨g.1.trans h.1, fun v hv => ?_⟩
  rcases g.2 v hv with hv | hv
  · exact h.2 v hv
  · exact .inr (hc ▸ hv)

theorem State.chWrite_storeWritten (i : Nat) (x : Int) (s : State) :
    StoreWritten s (s.chWrite i (sat x s.cfg.chMin s.cfg.chMax)) := by
  refine ⟨State.chWrite_length .., fun v hv => ?_⟩
  rw [State.chWrite_eq] at hv
  simp only at hv
  split at hv
  · exact (List.mem_or_eq_of_mem_set hv).imp_right fun e => ⟨x, e⟩
  · exact .inl hv

theorem State.writeAxes_storeWritten {pairs : List (Nat × Option Half)} {s t : State}
    (h : s.writeAxes pairs = .ok t) : StoreWritten s t := by
  induction pairs generalizing s with
  | nil =>
    cases h
    exact .of_eq rfl
  | cons p rest ih =>
    obtain ⟨k, sample⟩ := p
    cases sample with
    | none => exact ih h
    | some v =>
      simp only [State.writeAxes, State.writeAxis] at h
      by_cases hk : s.cfg.chanIndex k = true
      · rw [if_pos hk] at h
        exact (State.chWrite_storeWritten k (axisRaw s.cfg v.toInt) s).trans (State.chWrite_cfg ..) (ih h)
      · rw [if_neg hk] at h
        cases h

/-! ## Everything an operation can do -/

/-- What every operation outside the receive activity, but RESET, can do (60_exceptions.md R194): it writes the store
within its range, lowers the link or not, sends and answers. -/
def ControlEffect (s t : State) : Prop :=
  (∃ ch up ob o, t = { s with ch := ch, linkUp := up, outbound := ob, out := o }) ∧ StoreWritten s t ∧
    (t.linkUp = true → s.linkUp = true)

/-- An operation that sends and answers only. -/
theorem ControlEffect.of_output (s : State) (ob : List Byte) (o : Output) :
    ControlEffect s { s with outbound := ob, out := o } :=
  ⟨⟨s.ch, s.linkUp, ob, o, rfl⟩, .of_eq rfl, id⟩

theorem State.sendFrame_effect (t : Byte) (p : List Byte) (s : State) : ControlEffect s (s.begin.sendFrame t p) := by
  rw [(State.sendFrame_eq t p s.begin).1]
  exact .of_output s _ _

theorem execSetChannel_effect (i : Nat) (v : Half) {s t : State} (h : execSetChannel i v s = .next t) :
    ControlEffect s t := by
  cases h
  have hw : StoreWritten s (s.begin.chWrite i (sat v.toInt s.cfg.chMin s.cfg.chMax)) :=
    State.chWrite_storeWritten i v.toInt s.begin
  rw [State.chWrite_eq] at hw ⊢
  exact ⟨⟨_, _, _, _, rfl⟩, hw, id⟩

theorem execCtrlTick_effect {now : Time} {mixEn : Bool} {axes : List (Option Half)} {s t : State}
    (h : execCtrlTick now mixEn axes s = .next t) : ControlEffect s t := by
  obtain ⟨a, o, ha, -, rfl, hea, -⟩ := execCtrlTick_cases h
  have hlink := State.linkTimeout_eq now s.begin
  have hw : StoreWritten (s.begin.linkTimeout now) a := by
    cases mixEn with
    | false => cases ha; exact .of_eq rfl
    | true => exact State.writeAxes_storeWritten ha
  have hw : StoreWritten s a := by
    rw [hlink] at hw
    exact hw
  have hup : a.linkUp = true → s.linkUp = true := fun hup => by
    rw [hea, hlink] at hup
    exact (Bool.and_eq_true_iff.1 hup).1
  refine ⟨⟨a.ch, a.linkUp, a.outbound, (a.publish (a.override o)).out, ?_⟩, hw, hup⟩
  rw [hea, hlink]
  rfl

/-- RX_BYTE is the receipt of one byte, as RX_TICK is of several (R93, R100). -/
theorem execRxByte_eq (b : Byte) (now : Time) (s : State) : execRxByte b now s = conclude (s.begin.rxMany now [b]) := by
  unfold execRxByte State.rxMany
  cases s.begin.rxOne b now <;> rfl

/-- Everything an operation can do when it answers a next state: it is one of the receive activity and receives
bytes, it is RESET, or it has a control effect. -/
theorem exec_cases {i : Instr} {s t : State} (h : exec i s = .next t) :
    (∃ now bs, receiveTime i = some now ∧ s.begin.rxMany now bs = .ok t) ∨
      (i = .reset ∧ t = s.resetBlock) ∨ (i ≠ .reset ∧ ControlEffect s t) := by
  cases i with
  | rxByte b now => exact .inl ⟨now, [b], rfl, conclude_next (execRxByte_eq b now s ▸ h)⟩
  | rxTick _ now | frameRcChannelsPacked _ _ _ now | frameLinkStatistics _ _ _ now
  | frameBatterySensor _ _ _ now | frameOther _ _ _ now => exact .inl ⟨now, _, rfl, conclude_next h⟩
  | reset => cases h; exact .inr (.inl ⟨rfl, rfl⟩)
  | ctrlTick now mixEn axes => exact .inr (.inr ⟨nofun, execCtrlTick_effect h⟩)
  | setChannel k v => exact .inr (.inr ⟨nofun, execSetChannel_effect k v h⟩)
  | sendChannels | sendBattery =>
    cases h
    exact .inr (.inr ⟨nofun, State.sendFrame_effect ..⟩)
  | isLinkUp | getLinkStats =>
    cases h
    exact .inr (.inr ⟨nofun, .of_output s _ _⟩)
  | getChannel k =>
    refine .inr (.inr ⟨nofun, ?_⟩)
    simp only [exec, execGetChannel] at h
    split at h <;> cases h
    exact .of_output s _ _
  | encode ty payload =>
    refine .inr (.inr ⟨nofun, ?_⟩)
    simp only [exec, execEncode] at h
    split at h <;> cases h <;> exact .of_output s _ _
  | reserved0 | reservedB | reservedC | reservedD | reservedE => cases h

end Sys2Proof.Machine

/-!
PROOF. The statements of 10_state.md: the invariants of R22 at reset and through every step, the range of R11, the
timestamp of R22 item 4, and the link-statistics record of R17.
-/

namespace Sys2Proof.Machine

/-- Settles O6: under R65's layout the positions are 0 to 9, so each field reads its own byte. -/
theorem linkStatsFieldsInPayloadOrder : Obligations.LinkStatsFieldsInPayloadOrder := by
  intro c b0 b1 b2 b3 b4 b5 b6 b7 b8 b9 h
  unfold unpackLs
  rw [h]
  rfl

/-! ## The invariants -/

/-- Right after reset every well-formed configuration is in a good state. -/
theorem State.powerOn_inv {c : Config} (h : c.wf = true) : (State.powerOn c).Inv where
  cfgWf := h
  chLength := List.length_replicate
  chFits v hv := by
    rw [List.eq_of_mem_replicate hv]
    exact c.fitsCh_toCh _
  timeFits := Config.fitsTime_iff.2 (Nat.two_pow_pos _)
  bufWf := rfl
  bufBound _ _ := rfl
  lenBound hs := by simp [State.powerOn] at hs
  idxPayload := nofun
  idxCrc := nofun
  crcRegister hs := by simp [State.powerOn] at hs

/-- Settles O49: the reset state is the power-on state of the default configuration. -/
theorem invAfterReset : Obligations.InvAfterReset := State.powerOn_inv Config.wf_default

theorem State.Inv.begin {s : State} (h : s.Inv) : s.begin.Inv := { h with }

theorem State.Inv.withPending {s : State} (h : s.Inv) (ps : List Presented) : State.Inv { s with pending := ps } :=
  { h with }

theorem State.Inv.resetBlock {s : State} (h : s.Inv) : s.resetBlock.Inv := { State.powerOn_inv h.cfgWf with }

theorem State.Inv.controlEffect {s t : State} (h : s.Inv) (ht : ControlEffect s t) : t.Inv := by
  obtain ⟨⟨ch, up, ob, o, rfl⟩, ⟨hlen, hch⟩, -⟩ := ht
  exact { h with
    chLength := hlen.trans h.chLength
    chFits := fun v hv => by
      rcases hch v hv with hv | ⟨x, rfl⟩
      · exact h.chFits v hv
      · exact s.cfg.fitsCh_toCh _ }

/-- Every operation keeps the invariants, when a time it receives at has `TIME_W` bits. -/
theorem State.Inv.of_exec {i : Instr} {s t : State} (h : s.Inv)
    (hnow : ∀ now, receiveTime i = some now → s.cfg.fitsTime now = true) (ht : exec i s = .next t) : t.Inv := by
  rcases exec_cases ht with ⟨now, bs, hi, hrx⟩ | ⟨-, rfl⟩ | ⟨-, hctl⟩
  · exact h.begin.rxMany (hnow now hi) hrx
  · exact h.resetBlock
  · exact h.controlEffect hctl

/-- Settles O50: a step is idle or runs a decoded operation, whose times the decoder has checked. -/
theorem stepKeepsInvariants : Obligations.StepKeepsInvariants := by
  intro s t h ht
  rcases step_cases ht with ⟨-, rfl⟩ | ⟨p, rest, i, more, -, hd, hx⟩
  · exact h
  · exact (h.withPending (more ++ rest)).of_exec (fun _ => decode_fitsTime hd) hx

/-- What one receive operation of any number of bytes does from a good state. -/
theorem State.Inv.receive {s : State} (h : s.Inv) {now : Time} (hnow : s.cfg.fitsTime now = true) (bs : List Byte) :
    ∃ t, s.begin.rxMany now bs = .ok t ∧ t.Inv ∧ SameBoundary s t ∧ (s.linkUp = true → t.linkUp = true) := by
  obtain ⟨t, ht, hinv⟩ := h.begin.rxMany_total hnow bs
  obtain ⟨hcfg, hpending, houtbound, -⟩ := State.rxMany_boundary ht
  exact ⟨t, ht, hinv, ⟨hcfg, hpending, houtbound⟩, (State.rxMany_effect ht).link⟩

/-- Settles O8: RX_BYTE is the receipt of one byte, so both operations are one lemma. -/
theorem receivingCompletes : Obligations.ReceivingCompletes := by
  intro s now h hnow
  have hnow := Config.fitsTime_iff.2 hnow
  constructor
  · intro b
    obtain ⟨t, ht, hrest⟩ := h.receive hnow [b]
    exact ⟨t, by rw [exec, execRxByte_eq, ht]; rfl, hrest⟩
  · intro bs
    obtain ⟨t, ht, hrest⟩ := h.receive hnow bs
    exact ⟨t, by rw [exec, execRxTick, ht]; rfl, hrest⟩

/-! ## The range of a Channel Value (R11) -/

/-- Under the default wire conversion an unpacked channel is its wire value (R106). -/
theorem unpackRc_bounds {c : Config} (h : c.wf = true) (hw : c.wireOverrides = []) {payload : List Byte} {v : Int}
    (hv : v ∈ unpackRc c payload) : 0 ≤ v ∧ v ≤ 2 ^ c.chBits - 1 := by
  obtain ⟨w, hmem, rfl⟩ := List.mem_map.1 hv
  have hlt := wireFields_lt hmem
  have hid : wireToCh c w = w := by
    unfold wireToCh
    rw [hw]
    rfl
  rw [Config.toCh_of_fits (Config.wf_wire h hlt).2, hid]
  zify at hlt
  omega

/-- Every operation keeps the range. -/
theorem State.ChannelRange.of_exec {i : Instr} {s t : State} (h : s.Inv) (hw : s.cfg.wireOverrides = [])
    (hr : s.ChannelRange) (ht : exec i s = .next t) : t.ChannelRange := by
  have hwf := Config.wf_range h.cfgWf
  obtain ⟨-, hlo, hhi, -⟩ := Config.wfRange_parts hwf
  have within {x : Int} (h1 : s.cfg.chMin ≤ x) (h2 : x ≤ s.cfg.chMax) :
      min s.cfg.chMin 0 ≤ s.cfg.toCh x ∧ s.cfg.toCh x ≤ max s.cfg.chMax (2 ^ s.cfg.chBits - 1) := by
    rw [Config.toCh_of_range hwf h1 h2]
    exact ⟨min_le_of_left_le h1, le_max_of_le_left h2⟩
  rcases exec_cases ht with ⟨now, bs, -, hrx⟩ | ⟨-, rfl⟩ | ⟨-, ⟨_, _, _, _, rfl⟩, ⟨-, hch⟩, -⟩
  · have heff := State.rxMany_effect hrx
    rw [State.ChannelRange, heff.cfg]
    rcases heff.channels with e | ⟨payload, e⟩ <;> rw [e]
    · exact hr
    · intro v hv
      obtain ⟨h0, hmax⟩ := unpackRc_bounds h.cfgWf hw hv
      exact ⟨min_le_of_right_le h0, le_max_of_le_right hmax⟩
  · intro v hv
    rw [List.eq_of_mem_replicate hv]
    exact within hlo hhi
  · intro v hv
    rcases hch v hv with hv | ⟨x, rfl⟩
    · exact hr v hv
    · obtain ⟨h1, h2⟩ := sat_bounds x (hlo.trans hhi)
      exact within h1 h2

/-- Settles O52: a step is idle or runs an operation, and each writes saturated or unpacked values only. -/
theorem channelRangeKept : Obligations.ChannelRangeKept := by
  intro s t h hw hr ht
  rcases step_cases ht with ⟨-, rfl⟩ | ⟨p, rest, i, more, -, -, hx⟩
  · exact hr
  · exact State.ChannelRange.of_exec (h.withPending (more ++ rest)) hw hr hx

/-! ## The timestamp while the link is Up (R22 item 4) -/

/-- No operation but RESET raises the link or changes the timestamp, unless it is a receive operation and the new
timestamp is its time. -/
theorem exec_stamp {i : Instr} {s t : State} (h : exec i s = .next t) (hi : i ≠ .reset) :
    (t.lastValidTs = s.lastValidTs ∧ (t.linkUp = true → s.linkUp = true)) ∨ receiveTime i = some t.lastValidTs := by
  rcases exec_cases h with ⟨now, bs, htime, hrx⟩ | ⟨rfl, -⟩ | ⟨-, ⟨_, _, _, _, rfl⟩, -, hlink⟩
  · rcases (State.rxMany_effect hrx).stamp with ⟨hts, hlink⟩ | rfl
    · exact .inl ⟨hts, fun hup => hlink ▸ hup⟩
    · exact .inr htime
  · exact absurd rfl hi
  · exact .inl ⟨rfl, hlink⟩

/-- Along a sequence without RESET from any state: a link that is Up at the end was Up all along with the timestamp
it started with, or the timestamp is that of a receive operation of the sequence. -/
theorem runOps_stamp (is : List Instr) (s : State) (hr : Instr.reset ∉ is) (hup : (runOps is s).1.linkUp = true) :
    (s.linkUp = true ∧ (runOps is s).1.lastValidTs = s.lastValidTs) ∨
      ∃ i ∈ is, receiveTime i = some (runOps is s).1.lastValidTs := by
  induction is generalizing s with
  | nil => exact .inl ⟨hup, rfl⟩
  | cons i is ih =>
    obtain ⟨hi, hr⟩ := not_or.1 (mt List.mem_cons.2 hr)
    have later {r : State} (h : ∃ j ∈ is, receiveTime j = some r.lastValidTs) :
        ∃ j ∈ i :: is, receiveTime j = some r.lastValidTs :=
      let ⟨j, hj, ht⟩ := h
      ⟨j, List.mem_cons_of_mem _ hj, ht⟩
    simp only [runOps] at hup ⊢
    split at hup
    case h_1 t hx =>
      rcases ih t hr hup with ⟨hlink, hts⟩ | h
      · rw [hts]
        rcases exec_stamp hx (Ne.symm hi) with ⟨e, hkeep⟩ | htime
        · exact .inl ⟨hkeep hlink, e⟩
        · exact .inr ⟨i, List.mem_cons_self .., htime⟩
      · exact .inr (later h)
    case h_2 => exact .inl ⟨hup, rfl⟩
    case h_3 => exact (ih s hr hup).imp_right later

/-- Settles O55: the link starts Down, so it is a receive operation of the sequence that the timestamp comes from. -/
theorem timestampComesFromReceive : Obligations.TimestampComesFromReceive := by
  intro is s hdown hr hup
  rcases runOps_stamp is s hr hup with ⟨hlink, -⟩ | h
  · rw [hdown] at hlink
    cases hlink
  · exact h

end Sys2Proof.Machine

/-!
PROOF. The statements of 20_memory.md: a step runs the decoded instruction (R48), no step changes the parameters
(R54), no step from a good state faults (R47), and a frame has no effect before its checksum byte (R49).
-/

namespace Sys2Proof.Machine

/-! ## One step (R48, R54) -/

/-- Settles O46: the two cases of the decoder's answer are the step's two equations. -/
theorem stepRunsDecodedInstruction : Obligations.StepRunsDecodedInstruction := by
  intro s p rest hp
  split
  · rename_i hd
    exact step_run hp hd
  · rename_i hd
    exact step_bad hp hd

/-- No operation changes the parameters. -/
theorem exec_cfg {i : Instr} {s t : State} (h : exec i s = .next t) : t.cfg = s.cfg := by
  rcases exec_cases h with ⟨now, bs, -, hrx⟩ | ⟨-, rfl⟩ | ⟨-, ⟨_, _, _, _, rfl⟩, -⟩
  · exact (State.rxMany_effect hrx).cfg
  · exact State.resetBlock_cfg s
  · rfl

/-- Settles O53: a step is idle or runs an operation, and taking a presentation leaves the parameters alone. -/
theorem noStepChangesParameters : Obligations.NoStepChangesParameters := by
  intro s t h
  rcases step_cases h with ⟨-, rfl⟩ | ⟨p, rest, i, more, -, -, hx⟩
  · rfl
  · have hcfg := exec_cfg hx
    exact hcfg

/-! ## No fault from a good state (R47) -/

theorem Config.wfIndices_parts {c : Config} (h : c.wfIndices = true) :
    (c.chanIndex c.mixA = true ∧ c.chanIndex c.mixB = true) ∧ (∀ k ∈ c.axisCh, c.chanIndex k = true) ∧
      ∀ k ∈ c.servoCh, c.chanIndex k = true := by
  simpa only [Config.wfIndices, Bool.and_eq_true, List.all_eq_true, and_assoc] using h

theorem State.Inv.storeShaped {s : State} (h : s.Inv) : s.StoreShaped := by
  obtain ⟨-, -, hrange, -, hidx, -⟩ := Config.wf_parts h.cfgWf
  exact ⟨h.chLength, hrange, hidx⟩

/-- The axis step completes: every axis writes a channel that exists (R6). -/
theorem State.StoreShaped.axisStep_total {s : State} (h : s.StoreShaped) (mixEn : Bool) (axes : List (Option Half)) :
    ∃ t, s.axisStep mixEn axes = .ok t := by
  obtain ⟨-, -, hidx⟩ := h
  obtain ⟨-, haxis, -⟩ := Config.wfIndices_parts hidx
  cases mixEn with
  | false => exact ⟨s, rfl⟩
  | true => exact State.writeAxes_of_index fun p hp => haxis p.1 (List.of_mem_zip hp).1

/-- The mix completes: it reads channels that exist (R6). -/
theorem State.StoreShaped.mixOut_total {s : State} (h : s.StoreShaped) : ∃ o, s.mixOut = .ok o := by
  obtain ⟨hlen, -, hidx⟩ := h
  obtain ⟨⟨hA, hB⟩, -, hservo⟩ := Config.wfIndices_parts hidx
  unfold State.mixOut
  split
  · obtain ⟨a, ha⟩ := State.chRead_in hA hlen
    obtain ⟨b, hb⟩ := State.chRead_in hB hlen
    exact ⟨diffOut s.cfg a b, by rw [ha, hb]⟩
  · obtain ⟨vs, -, hps⟩ := State.servoPulses_of_index hlen hservo
    exact ⟨_, by rw [hps]⟩

/-- The axis step keeps the store's shape. -/
theorem State.StoreShaped.of_axisStep {s t : State} (h : s.StoreShaped) {mixEn : Bool} {axes : List (Option Half)}
    (ht : s.axisStep mixEn axes = .ok t) : t.StoreShaped := by
  cases mixEn with
  | false => cases ht; exact h
  | true =>
    obtain ⟨e, hlen⟩ := State.writeAxes_ok ht
    rw [State.StoreShaped, hlen, e]
    exact h

theorem State.StoreShaped.begin_linkTimeout {s : State} (h : s.StoreShaped) (now : Time) :
    (s.begin.linkTimeout now).StoreShaped := by
  rw [State.linkTimeout_eq]
  exact h

/-- A tick completes whatever its samples are (42_channel_mixer.md R150: "the operation is total"). -/
theorem State.StoreShaped.execCtrlTick_total {s : State} (h : s.StoreShaped) (now : Time) (mixEn : Bool)
    (axes : List (Option Half)) : ∃ t, execCtrlTick now mixEn axes s = .next t := by
  obtain ⟨a, ha⟩ := (h.begin_linkTimeout now).axisStep_total mixEn axes
  obtain ⟨o, ho⟩ := ((h.begin_linkTimeout now).of_axisStep ha).mixOut_total
  exact ⟨a.publish (a.override o), by simp only [execCtrlTick, ha, State.mixStep, ho, conclude]⟩

theorem conclude_fault {r : Except Fault State} {f : Fault} (h : conclude r = .fault f) : r = .error f := by
  cases r <;> cases h
  rfl

/-- Only the receipt of bytes and a tick can fault (R47). -/
theorem exec_fault_cases {i : Instr} {s : State} {f : Fault} (h : exec i s = .fault f) :
    (∃ now bs, receiveTime i = some now ∧ s.begin.rxMany now bs = .error f) ∨
      ∃ now mixEn axes, execCtrlTick now mixEn axes s = .fault f := by
  cases i with
  | rxByte b now => exact .inl ⟨now, [b], rfl, conclude_fault (execRxByte_eq b now s ▸ h)⟩
  | rxTick _ now | frameRcChannelsPacked _ _ _ now | frameLinkStatistics _ _ _ now
  | frameBatterySensor _ _ _ now | frameOther _ _ _ now => exact .inl ⟨now, _, rfl, conclude_fault h⟩
  | ctrlTick now mixEn axes => exact .inr ⟨now, mixEn, axes, h⟩
  | getChannel k =>
    simp only [exec, execGetChannel] at h
    split at h <;> cases h
  | encode ty payload =>
    simp only [exec, execEncode] at h
    split at h <;> cases h
  | _ => cases h

/-- No operation faults from a good state, when a time it receives at has `TIME_W` bits. -/
theorem State.Inv.exec_ne_fault {i : Instr} {s : State} (h : s.Inv)
    (hnow : ∀ now, receiveTime i = some now → s.cfg.fitsTime now = true) (f : Fault) : exec i s ≠ .fault f := by
  intro hf
  rcases exec_fault_cases hf with ⟨now, bs, hi, hrx⟩ | ⟨now, mixEn, axes, htick⟩
  · obtain ⟨t, ht, -⟩ := h.begin.rxMany_total (hnow now hi) bs
    cases ht.symm.trans hrx
  · obtain ⟨t, ht⟩ := h.storeShaped.execCtrlTick_total now mixEn axes
    cases ht.symm.trans htick

/-- Settles O51: idle steps and refusals are no faults, and the decoder has checked the times of what runs. -/
theorem noStepFaults : Obligations.NoStepFaults := by
  intro s f h hf
  cases hp : s.pending with
  | nil => cases (step_idle hp).symm.trans hf
  | cons p rest =>
    cases hd : decode s.cfg p with
    | error e => cases (step_bad hp hd).symm.trans hf
    | ok r =>
      obtain ⟨i, more⟩ := r
      rw [step_run hp hd] at hf
      exact (h.withPending (more ++ rest)).exec_ne_fault (fun _ => decode_fitsTime hd) f hf

/-! ## Nothing before the checksum byte (R49, 40_frame_codec.md R115) -/

theorem SameOutsideParser.refl (s : State) : SameOutsideParser s s := ⟨⟨rfl, rfl, rfl⟩, rfl, rfl, rfl, rfl⟩

theorem SameOutsideParser.trans {s t u : State} (h : SameOutsideParser s t) (g : SameOutsideParser t u) :
    SameOutsideParser s u := by
  obtain ⟨⟨h1, h2, h3⟩, h4, h5, h6, h7⟩ := h
  obtain ⟨⟨g1, g2, g3⟩, g4, g5, g6, g7⟩ := g
  exact ⟨⟨g1.trans h1, g2.trans h2, g3.trans h3⟩, g4.trans h4, g5.trans h5, g6.trans h6, g7.trans h7⟩

/-- How many bytes of the frame under way are still to come, its checksum byte included, once its LEN byte has been
received (R61: LEN counts the type, the payload and the checksum). -/
def State.bytesLeft (s : State) : Nat :=
  match s.rxState with
  | .addr => 0
  | .len => 0
  | .type => s.rxLen.toNat
  | .payload => s.rxLen.toNat - 1 - s.rxIdx
  | .crc => 1

theorem State.rxState_ne_addr_of_bytesLeft {s : State} (h : 0 < s.bytesLeft) : s.rxState ≠ .addr := by
  intro hs
  simp [State.bytesLeft, hs] at h

/-- A byte that is not the last of its frame is received into the parser alone, and one byte fewer is left. -/
theorem State.rxOne_of_bytesLeft {s : State} (b : Byte) (now : Time) (hlen : s.rxLen.toNat ≤ s.cfg.maxPayload + 2)
    (h : 1 < s.bytesLeft) :
    ∃ t, s.rxOne b now = .ok t ∧ SameOutsideParser s t ∧ t.out = s.out ∧ t.rxLen = s.rxLen ∧
      t.bytesLeft + 1 = s.bytesLeft := by
  unfold State.bytesLeft at h ⊢
  cases hs : s.rxState <;> simp only [hs] at h ⊢
  case addr | len | crc => omega
  case type =>
    refine ⟨_, State.rxOne_type b now hs, .refl s, rfl, rfl, ?_⟩
    by_cases he : s.rxLen = 2
    · simp [he]
    · simp only [State.rxTypeByte_rxState, State.rxTypeByte_rxLen, State.rxTypeByte_rxIdx, if_neg he]
      omega
  case payload =>
    refine ⟨_, State.rxOne_payload b now hs (by omega), .refl s, rfl, rfl, ?_⟩
    by_cases he : s.rxIdx + 1 = s.rxLen.toNat - 2
    · simp only [if_pos he]
      omega
    · simp only [if_neg he]
      omega

/-- Bytes that stop short of the last of their frame are received into the parser alone, and leave it inside the
frame. -/
theorem State.rxMany_of_bytesLeft {s : State} (bs : List Byte) (now : Time)
    (hlen : s.rxLen.toNat ≤ s.cfg.maxPayload + 2) (h : bs.length < s.bytesLeft) :
    ∃ t, s.rxMany now bs = .ok t ∧ SameOutsideParser s t ∧ t.out = s.out ∧ t.rxState ≠ .addr := by
  induction bs generalizing s with
  | nil => exact ⟨s, rfl, .refl s, rfl, State.rxState_ne_addr_of_bytesLeft h⟩
  | cons b bs ih =>
    rw [List.length_cons] at h
    obtain ⟨u, hu, hsame, hout, hrl, hleft⟩ := State.rxOne_of_bytesLeft b now hlen (by omega)
    obtain ⟨hcfg, -⟩ := State.rxOne_boundary hu
    obtain ⟨t, ht, hsame', hout', hne⟩ := ih (by rw [hrl, hcfg]; exact hlen) (by omega)
    exact ⟨t, by simp only [State.rxMany, hu, ht], hsame.trans hsame', hout'.trans hout, hne⟩

/-- The address and a legal LEN byte, received between frames (R94, R95). -/
theorem State.rxMany_header {s : State} (a : Byte) {len : Byte} (bs : List Byte) (now : Time) (h : s.rxState = .addr)
    (hlen : lenLegal s.cfg len = true) :
    s.rxMany now (a :: len :: bs) = State.rxMany now bs { s with rxAddr := a, rxLen := len, rxState := .type } := by
  simp only [State.rxMany, State.rxOne_addr a now h]
  rw [State.rxOne_len_ok (s := { s with rxAddr := a, rxState := .len }) now rfl hlen]

/-- Settles O10: after no byte and after the address the state is written out; after the LEN byte, fewer bytes
follow than are left of the frame. -/
theorem noEffectBeforeChecksum : Obligations.NoEffectBeforeChecksum := by
  intro s a t ck payload now k hwf _ haddr hpay hk
  obtain ⟨-, -, -, -, hmax⟩ := Config.wf_sizes hwf
  have hnat : (lenByte payload.length).toNat = payload.length + 2 := lenByte_toNat (by omega)
  match k with
  | 0 => exact ⟨s.begin, rfl, .refl s, rfl, fun h => absurd h (Nat.lt_irrefl 0)⟩
  | 1 =>
    have hrx : s.begin.rxMany now [a] = .ok { s.begin with rxAddr := a, rxState := .len } := by
      simp only [State.rxMany, State.rxOne_addr a now (s := s.begin) haddr]
    exact ⟨_, congrArg conclude hrx, .refl s, rfl, fun _ => nofun⟩
  | k + 2 =>
    have hlegal : lenLegal s.cfg (lenByte payload.length) = true := lenLegal_iff.2 (by omega)
    have hshort : ((t :: (payload ++ [ck])).take k).length < (lenByte payload.length).toNat := by
      rw [List.length_take]
      omega
    obtain ⟨u, hu, hsame, hout, hne⟩ := State.rxMany_of_bytesLeft
      (s := { s.begin with rxAddr := a, rxLen := lenByte payload.length, rxState := .type })
      ((t :: (payload ++ [ck])).take k) now (by simp only [hnat]; exact Nat.add_le_add_right hpay 2) hshort
    rw [← State.rxMany_header (s := s.begin) a _ now haddr hlegal] at hu
    exact ⟨u, congrArg conclude hu, hsame, congrArg Output.events hout, fun _ => hne⟩

end Sys2Proof.Machine

/-!
PROOF. Decode and encode (30_encoding.md R60, R61, R75, R76): every well-formed instruction is decoded from its own
encoding, lanes that decode are the lanes of what they decode to, and no byte of the wire is dropped.
-/

namespace Sys2Proof

open Sys2Proof.Machine

/-! ## Frame headers (R61, R62, R64 to R67) -/

theorem headerIs_iff {ty : Byte} {size : Nat} {len t : Byte} :
    headerIs ty size len t = true ↔ t = ty ∧ len.toNat = size + 2 := by
  simp only [headerIs, Bool.and_eq_true, decide_eq_true_eq]

theorem headerIs_eq_false {ty : Byte} {size : Nat} {len t : Byte} (h : t ≠ ty) : headerIs ty size len t = false :=
  Bool.eq_false_iff.2 fun ht => h (headerIs_iff.1 ht).1

theorem headerIs_lenByte (ty : Byte) {size : Nat} (h : size ≤ 253) : headerIs ty size (lenByte size) ty = true :=
  headerIs_iff.2 ⟨rfl, lenByte_toNat h⟩

theorem lenLegal_lenByte {c : Config} (h : c.wf = true) {n : Nat} (hn : n ≤ c.maxPayload) :
    lenLegal c (lenByte n) = true := by
  obtain ⟨-, -, -, -, hmax⟩ := Config.wf_sizes h
  rw [lenLegal_iff, lenByte_toNat (hn.trans hmax)]
  omega

/-! ## Frames by their header -/

/-- What a frame is classified as: one of the three rows with a priority, by its header, or FRAME_OTHER. -/
theorem classifyFrame_cases (c : Config) (a len t : Byte) (rest : List Byte) (now : Time) :
    (headerIs c.typeRc c.rcPayload len t = true ∧
      classifyFrame c a len t rest now = .frameRcChannelsPacked a rest.dropLast (rest.getLastD 0) now) ∨
    (headerIs c.typeLs c.lsPayload len t = true ∧
      classifyFrame c a len t rest now = .frameLinkStatistics a rest.dropLast (rest.getLastD 0) now) ∨
    (headerIs c.typeBt c.btPayload len t = true ∧
      classifyFrame c a len t rest now = .frameBatterySensor a rest.dropLast (rest.getLastD 0) now) ∨
    (headerKnown c len t = false ∧ classifyFrame c a len t rest now = .frameOther a len (t :: rest) now) := by
  unfold classifyFrame headerKnown
  cases headerIs c.typeRc c.rcPayload len t
  · cases headerIs c.typeLs c.lsPayload len t
    · cases headerIs c.typeBt c.btPayload len t
      · exact .inr (.inr (.inr ⟨rfl, rfl⟩))
      · exact .inr (.inr (.inl ⟨rfl, rfl⟩))
    · exact .inr (.inl ⟨rfl, rfl⟩)
  · exact .inl ⟨rfl, rfl⟩

theorem classifyFrame_rc {c : Config} {len t : Byte} (a : Byte) (p : List Byte) (ck : Byte) (now : Time)
    (h : headerIs c.typeRc c.rcPayload len t = true) :
    classifyFrame c a len t (p ++ [ck]) now = .frameRcChannelsPacked a p ck now := by
  simp [classifyFrame, h]

theorem classifyFrame_ls {c : Config} (hwf : c.wf = true) {len t : Byte} (a : Byte) (p : List Byte) (ck : Byte)
    (now : Time) (h : headerIs c.typeLs c.lsPayload len t = true) :
    classifyFrame c a len t (p ++ [ck]) now = .frameLinkStatistics a p ck now := by
  obtain ⟨rfl, -⟩ := headerIs_iff.1 h
  obtain ⟨hrc, -, -⟩ := Config.wf_types hwf
  simp [classifyFrame, h, headerIs_eq_false hrc.symm]

theorem classifyFrame_bt {c : Config} (hwf : c.wf = true) {len t : Byte} (a : Byte) (p : List Byte) (ck : Byte)
    (now : Time) (h : headerIs c.typeBt c.btPayload len t = true) :
    classifyFrame c a len t (p ++ [ck]) now = .frameBatterySensor a p ck now := by
  obtain ⟨rfl, -⟩ := headerIs_iff.1 h
  obtain ⟨-, hrc, hls⟩ := Config.wf_types hwf
  simp [classifyFrame, h, headerIs_eq_false hrc.symm, headerIs_eq_false hls.symm]

theorem classifyFrame_other {c : Config} {len t : Byte} (a : Byte) (rest : List Byte) (now : Time)
    (h : headerKnown c len t = false) : classifyFrame c a len t rest now = .frameOther a len (t :: rest) now := by
  simp only [headerKnown, Bool.or_eq_false_iff] at h
  simp [classifyFrame, h]

/-- The bytes of a row's frame from its header and what follows the type byte. -/
theorem frameBytes_of_headerIs {ty : Byte} {size : Nat} {len t : Byte} (a : Byte) {rest : List Byte}
    (h : headerIs ty size len t = true) (hlen : (t :: rest).length = len.toNat) :
    frameBytes a (lenByte size) ty rest.dropLast (rest.getLastD 0) = a :: len :: t :: rest ∧
      rest.dropLast.length = size := by
  obtain ⟨rfl, hl⟩ := headerIs_iff.1 h
  rw [List.length_cons] at hlen
  have hne : rest ≠ [] := List.ne_nil_of_length_pos (by omega)
  rw [frameBytes, lenByte_of_toNat hl, List.getLastD_eq_getLast?, List.getLast?_eq_some_getLast hne, Option.getD_some,
    List.dropLast_append_getLast hne, List.length_dropLast]
  exact ⟨rfl, by omega⟩

/-- A classified frame is encoded as the bytes it was classified from, and it is well-formed. -/
theorem encode_classifyFrame {c : Config} {len t : Byte} (a : Byte) {rest : List Byte} {now : Time}
    (hlegal : lenLegal c len = true) (hlen : (t :: rest).length = len.toNat) (hnow : c.fitsTime now = true) :
    encode c (classifyFrame c a len t rest now) = .wire (a :: len :: t :: rest) now ∧
      (classifyFrame c a len t rest now).wf c = true := by
  obtain ⟨h, e⟩ | ⟨h, e⟩ | ⟨h, e⟩ | ⟨h, e⟩ := classifyFrame_cases c a len t rest now <;> rw [e]
  case inr.inr.inr =>
    exact ⟨rfl, by simp only [Instr.wf, hnow, hlegal, hlen, h, decide_true, Bool.not_false, Bool.and_self]⟩
  all_goals
    obtain ⟨hbytes, hsize⟩ := frameBytes_of_headerIs a h hlen
    exact ⟨by rw [encode, hbytes], by simp only [Instr.wf, hnow, hsize, decide_true, Bool.and_self]⟩

/-! ## The front of the inbound bytes (R60, R61, R95) -/

/-- A legal LEN byte with as many bytes behind it as it announces. -/
theorem decodeWire_legal {c : Config} {len t : Byte} (a : Byte) {body : List Byte} (rest : List Byte) (now : Time)
    (hlegal : lenLegal c len = true) (hlen : (t :: body).length = len.toNat) :
    decodeWire c (a :: len :: t :: (body ++ rest)) now = (classifyFrame c a len t body now, rest) := by
  have htake : (t :: (body ++ rest)).take len.toNat = t :: body := List.take_left' (l₁ := t :: body) hlen
  have hdrop : (t :: (body ++ rest)).drop len.toNat = rest := List.drop_left' (l₁ := t :: body) hlen
  have hlong : ¬(t :: (body ++ rest)).length < len.toNat := by
    rw [← hlen, List.length_cons, List.length_cons, List.length_append]
    omega
  simp only [decodeWire, hlegal, if_true, htake, if_neg hlong, hdrop]

/-- An illegal LEN byte ends its frame. -/
theorem decodeWire_illegal {c : Config} {len : Byte} (a : Byte) (rest : List Byte) (now : Time)
    (h : lenLegal c len = false) : decodeWire c (a :: len :: rest) now = (.frameOther a len [] now, rest) := by
  simp [decodeWire, h]

/-- Everything wire bytes can decode to: no whole frame, a frame with an illegal LEN, a whole frame with a legal
LEN. -/
theorem decodeWire_cases (c : Config) (bytes : List Byte) (now : Time) :
    decodeWire c bytes now = (.rxTick bytes now, []) ∨
    (∃ a len rest, bytes = a :: len :: rest ∧ lenLegal c len = false) ∨
    ∃ a len t body rest, bytes = a :: len :: t :: (body ++ rest) ∧ lenLegal c len = true ∧
      (t :: body).length = len.toNat := by
  match bytes with
  | [] | [_] => exact .inl rfl
  | a :: len :: rest =>
    cases hlegal : lenLegal c len with
    | false => exact .inr (.inl ⟨a, len, rest, rfl, hlegal⟩)
    | true =>
      cases htake : rest.take len.toNat with
      | nil => exact .inl (by simp only [decodeWire, hlegal, if_true, htake])
      | cons t body =>
        by_cases hshort : rest.length < len.toNat
        · exact .inl (by simp only [decodeWire, hlegal, if_true, htake, if_pos hshort])
        · have hlen : (t :: body).length = len.toNat := by
            rw [← htake, List.length_take]
            omega
          refine .inr (.inr ⟨a, len, t, body, rest.drop len.toNat, ?_, hlegal, hlen⟩)
          rw [← List.cons_append, ← htake, List.take_append_drop]

/-! ## Decoding what was encoded -/

theorem decode_port_of_ok {c : Config} {op : Sel} {xs : List Int} {i : Instr} (h : decodePort c op xs = .ok i) :
    decode c (.port op xs) = .ok (i, []) := by
  simp only [decode, h]

theorem decode_wire_of_eq {c : Config} {bytes : List Byte} {now : Time} {i : Instr} (hnow : c.fitsTime now = true)
    (h : decodeWire c bytes now = (i, [])) : decode c (.wire bytes now) = .ok (i, []) := by
  simp only [decode, hnow, if_true, h, leftover]

theorem decodePort_encode_rxByte {c : Config} (b : Byte) {now : Time} (h : c.fitsTime now = true) :
    decodePort c 0x1 [(b.toNat : Int), (now : Int)] = .ok (.rxByte b now) := by
  simp only [decodePort_rxByte, lanesRxByte, laneByte_toNat, laneTime_natCast h]

theorem decodePort_encode_ctrlTick {c : Config} {now : Time} (mixEn : Bool) {axes : List (Option Half)}
    (hnow : c.fitsTime now = true) (hlen : axes.length = c.nAxis) (hlegal : axes.all (axisLegal c) = true) :
    decodePort c 0x3 ((now : Int) :: (if mixEn then 1 else 0) :: axes.flatMap sampleLanes) =
      .ok (.ctrlTick now mixEn axes) := by
  simp only [decodePort_ctrlTick, lanesCtrlTick, laneTime_natCast hnow, laneBit_ite, ← hlen, takeSamples_lanes hlegal]

theorem decodePort_encode_setChannel (c : Config) (k : Nat) (v : Half) :
    decodePort c 0x4 [(k : Int), v.toInt] = .ok (.setChannel k v) := by
  simp only [decodePort_setChannel, lanesSetChannel, laneNat_natCast, laneHalf_toInt]

theorem decodePort_encode_getChannel (c : Config) (k : Nat) : decodePort c 0x5 [(k : Int)] = .ok (.getChannel k) := by
  simp only [decodePort_getChannel, lanesGetChannel, laneNat_natCast]

theorem decodePort_encode_encode (c : Config) (t : Byte) (payload : List Byte) :
    decodePort c 0x7 ((t.toNat : Int) :: sequenceLanes payload) = .ok (.encode t payload) := by
  simp only [decodePort_encode, lanesEncode, laneByte_toNat, takeSequence_lanes]

theorem decodePort_encode_sendBattery (c : Config) (mv ma mah : Nat) (pct : Byte) :
    decodePort c 0x8 [(mv : Int), (ma : Int), (mah : Int), (pct.toNat : Int)] = .ok (.sendBattery mv ma mah pct) := by
  simp only [decodePort_sendBattery, lanesSendBattery, laneNat_natCast, laneByte_toNat]

/-- The bytes of a row's frame, with a payload of the row's size, decode to the frame they are classified as. -/
theorem decode_wire_frameBytes {c : Config} (hwf : c.wf = true) (a ty ck : Byte) {payload : List Byte} {size : Nat}
    {now : Time} {i : Instr} (hnow : c.fitsTime now = true) (hlen : payload.length = size) (hmax : size ≤ c.maxPayload)
    (hi : headerIs ty size (lenByte size) ty = true →
      classifyFrame c a (lenByte size) ty (payload ++ [ck]) now = i) :
    decode c (.wire (frameBytes a (lenByte size) ty payload ck) now) = .ok (i, []) := by
  obtain ⟨-, -, -, -, h253⟩ := Config.wf_sizes hwf
  have hsize : size ≤ 253 := hmax.trans h253
  have hframe := decodeWire_frameBytes (p := payload) a ty ck now (lenLegal_lenByte hwf hmax)
    (by rw [hlen, lenByte_toNat hsize])
  rw [hi (headerIs_lenByte ty hsize)] at hframe
  exact decode_wire_of_eq hnow hframe

theorem decode_wire_frameOther {c : Config} {a len : Byte} {body : List Byte} {now : Time}
    (h : (Instr.frameOther a len body now).wf c = true) :
    decode c (.wire (a :: len :: body) now) = .ok (.frameOther a len body now, []) := by
  cases body with
  | nil =>
    simp only [Instr.wf, Bool.and_eq_true, Bool.not_eq_true'] at h
    obtain ⟨hnow, hillegal⟩ := h
    exact decode_wire_of_eq hnow (decodeWire_illegal a [] now hillegal)
  | cons t body =>
    simp only [Instr.wf, Bool.and_eq_true, Bool.not_eq_true', decide_eq_true_eq] at h
    obtain ⟨hnow, ⟨hlegal, hlen⟩, hother⟩ := h
    have hframe := decodeWire_legal a [] now hlegal hlen
    rw [List.append_nil, classifyFrame_other a body now hother] at hframe
    exact decode_wire_of_eq hnow hframe

/-- Settles O42, row by row: on the port every lane reads back what the encoder put there, on the wire the header
that the encoder wrote names the row again. -/
theorem decodeOfEncode : Obligations.DecodeOfEncode := by
  intro c i hwf hi
  obtain ⟨-, hrc, hls, hbt, -⟩ := Config.wf_sizes hwf
  cases i with
  | rxByte b now => exact decode_port_of_ok (decodePort_encode_rxByte b hi)
  | rxTick bs now => exact decode_port_of_ok (lanesRxTick_lanes bs hi)
  | ctrlTick now mixEn axes =>
    simp only [Instr.wf, Bool.and_eq_true, decide_eq_true_eq] at hi
    obtain ⟨⟨hnow, hlen⟩, hlegal⟩ := hi
    exact decode_port_of_ok (decodePort_encode_ctrlTick mixEn hnow hlen hlegal)
  | setChannel k v => exact decode_port_of_ok (decodePort_encode_setChannel c k v)
  | getChannel k => exact decode_port_of_ok (decodePort_encode_getChannel c k)
  | encode t payload => exact decode_port_of_ok (decodePort_encode_encode c t payload)
  | sendBattery mv ma mah pct => exact decode_port_of_ok (decodePort_encode_sendBattery c mv ma mah pct)
  | sendChannels | isLinkUp | getLinkStats | reset | reserved0 | reservedB | reservedC | reservedD | reservedE => rfl
  | frameRcChannelsPacked a payload ck now =>
    simp only [Instr.wf, Bool.and_eq_true, decide_eq_true_eq] at hi
    exact decode_wire_frameBytes hwf a c.typeRc ck hi.1 hi.2 hrc (classifyFrame_rc a payload ck now)
  | frameLinkStatistics a payload ck now =>
    simp only [Instr.wf, Bool.and_eq_true, decide_eq_true_eq] at hi
    exact decode_wire_frameBytes hwf a c.typeLs ck hi.1 hi.2 hls (classifyFrame_ls hwf a payload ck now)
  | frameBatterySensor a payload ck now =>
    simp only [Instr.wf, Bool.and_eq_true, decide_eq_true_eq] at hi
    exact decode_wire_frameBytes hwf a c.typeBt ck hi.1 hi.2 hbt (classifyFrame_bt hwf a payload ck now)
  | frameOther a len body now => exact decode_wire_frameOther hi

/-- A table word that presents the encoding of a well-formed instruction decodes to it (notes/assumptions/6.md). -/
theorem decodeTableWord_of_encode {nbits w : Nat} {i : Instr}
    (h : tableWord Config.default nbits w = encode Config.default i) (hi : i.wf Config.default = true) :
    decodeTableWord nbits w = some i := by
  rw [decodeTableWord, h, decodeOfEncode Config.default i Config.wf_default hi]

/-- Settles O45: each word presents the encoding of its row with zero operands. -/
theorem tableWordsDecode : Obligations.TableWordsDecode :=
  ⟨decodeTableWord_of_encode rfl rfl, decodeTableWord_of_encode rfl rfl, decodeTableWord_of_encode rfl rfl,
    decodeTableWord_of_encode rfl rfl, decodeTableWord_of_encode rfl rfl, decodeTableWord_of_encode rfl rfl⟩

/-! ## Encoding what was decoded -/

theorem lanesRxByte_encode {c : Config} {xs : List Int} {i : Instr} (h : lanesRxByte c xs = .ok i) :
    encode c i = .port 0x1 xs := by
  unfold lanesRxByte at h
  split at h
  · split at h
    · rename_i hb ht
      cases h
      rw [laneByte_ok hb, (laneTime_ok ht).1, encode]
    all_goals cases h
  all_goals cases h

theorem lanesRxTick_encode {c : Config} {xs : List Int} {i : Instr} (h : lanesRxTick c xs = .ok i) :
    encode c i = .port 0x2 xs := by
  unfold lanesRxTick at h
  split at h
  case h_2 hs =>
    split at h
    · rename_i ht
      cases h
      rw [takeSequence_ok hs, (laneTime_ok ht).1, encode]
    · cases h
  all_goals cases h

theorem lanesCtrlTick_encode {c : Config} {xs : List Int} {i : Instr} (h : lanesCtrlTick c xs = .ok i) :
    encode c i = .port 0x3 xs := by
  unfold lanesCtrlTick at h
  split at h
  · split at h
    · rename_i ht hb hs
      cases h
      obtain ⟨-, -, rfl⟩ := takeSamples_ok hs
      rw [(laneTime_ok ht).1, laneBit_ok hb, encode]
    all_goals cases h
  · cases h

theorem lanesSetChannel_encode (c : Config) {xs : List Int} {i : Instr} (h : lanesSetChannel xs = .ok i) :
    encode c i = .port 0x4 xs := by
  unfold lanesSetChannel at h
  split at h
  · split at h
    · rename_i hn hv
      cases h
      rw [laneNat_ok hn, laneHalf_ok hv, encode]
    all_goals cases h
  all_goals cases h

theorem lanesGetChannel_encode (c : Config) {xs : List Int} {i : Instr} (h : lanesGetChannel xs = .ok i) :
    encode c i = .port 0x5 xs := by
  unfold lanesGetChannel at h
  split at h
  · split at h
    · rename_i hn
      cases h
      rw [laneNat_ok hn, encode]
    · cases h
  all_goals cases h

theorem lanesEncode_encode (c : Config) {xs : List Int} {i : Instr} (h : lanesEncode xs = .ok i) :
    encode c i = .port 0x7 xs := by
  unfold lanesEncode at h
  split at h
  · cases h
  · split at h
    · rename_i hb hs
      cases h
      rw [laneByte_ok hb, takeSequence_ok hs, List.append_nil, encode]
    all_goals cases h

theorem lanesSendBattery_encode (c : Config) {xs : List Int} {i : Instr} (h : lanesSendBattery xs = .ok i) :
    encode c i = .port 0x8 xs := by
  unfold lanesSendBattery at h
  split at h
  · split at h
    · rename_i hmv hma hmah hpct
      cases h
      rw [laneNat_ok hmv, laneNat_ok hma, laneNat_ok hmah, laneByte_ok hpct, encode]
    all_goals cases h
  all_goals cases h

theorem noLanes_encode {c : Config} {op : Sel} {xs : List Int} {i j : Instr} (hi : encode c i = .port op [])
    (h : noLanes i xs = .ok j) : encode c j = .port op xs := by
  cases xs with
  | nil => cases h; exact hi
  | cons => cases h

/-- The selectors that name an operation (R75). -/
theorem selector_cases (op : Sel) (h : op ∉ [0x0, 0xB, 0xC, 0xD, 0xE]) :
    op = 0x1 ∨ op = 0x2 ∨ op = 0x3 ∨ op = 0x4 ∨ op = 0x5 ∨ op = 0x6 ∨ op = 0x7 ∨ op = 0x8 ∨ op = 0x9 ∨ op = 0xA ∨
      op = 0xF := by
  revert op
  decide

/-- Lanes that decode under a selector that names an operation are the lanes of what they decode to. -/
theorem encode_of_decodePort {c : Config} {op : Sel} {xs : List Int} {i : Instr} (h : decodePort c op xs = .ok i)
    (hop : op ∉ [0x0, 0xB, 0xC, 0xD, 0xE]) : encode c i = .port op xs := by
  obtain rfl | rfl | rfl | rfl | rfl | rfl | rfl | rfl | rfl | rfl | rfl := selector_cases op hop
  · exact lanesRxByte_encode h
  · exact lanesRxTick_encode h
  · exact lanesCtrlTick_encode h
  · exact lanesSetChannel_encode c h
  · exact lanesGetChannel_encode c h
  · exact noLanes_encode rfl h
  · exact lanesEncode_encode c h
  · exact lanesSendBattery_encode c h
  · exact noLanes_encode rfl h
  · exact noLanes_encode rfl h
  · exact noLanes_encode rfl h

/-- Settles O43: by selector, each lane that is read is the lane the encoder writes. -/
theorem encodeOfDecodedPort : Obligations.EncodeOfDecodedPort := by
  intro c op lanes i more h hop
  simp only [decode] at h
  cases hd : decodePort c op lanes with
  | error e => simp [hd] at h
  | ok j =>
    simp only [hd, Except.ok.injEq, Prod.mk.injEq] at h
    obtain ⟨rfl, rfl⟩ := h
    exact ⟨encode_of_decodePort hd hop, rfl, decodePort_wf hd⟩

/-- Settles O44, along the three ways in which wire bytes decode. -/
theorem wireDecodeKeepsEveryByte : Obligations.WireDecodeKeepsEveryByte := by
  intro c bytes now _ hnow
  have hfits : c.fitsTime now = true := Config.fitsTime_iff.2 hnow
  obtain hpartial | ⟨a, len, rest, rfl, hillegal⟩ | ⟨a, len, t, body, rest, rfl, hlegal, hlen⟩ :=
    decodeWire_cases c bytes now
  · rw [hpartial]
    rfl
  · rw [decodeWire_illegal a rest now hillegal]
    exact ⟨rfl, rfl, by simp only [Instr.wf, hfits, hillegal, Bool.not_false, Bool.and_self]⟩
  · obtain ⟨hencode, hwf⟩ := encode_classifyFrame a hlegal hlen hfits
    rw [decodeWire_legal a rest now hlegal hlen]
    dsimp only
    rw [hencode]
    exact ⟨rfl, rfl, hwf⟩

/-! ## Reserved selectors (R76) -/

/-- Settles O30: each reserved row's meaning is the refusal of its selector. -/
theorem reservedSelectorsRefused : Obligations.ReservedSelectorsRefused := fun _ => ⟨rfl, rfl, rfl, rfl, rfl⟩

end Sys2Proof

/-!
PROOF. The payloads that are sent (30_encoding.md R64, R66; 40_frame_codec.md R104, R105, R109, R110): where each bit of
a wire field and each battery field stands, and the default layouts as the integers and byte strings of the spec.
-/

namespace Sys2Proof.Machine

/-! ## RC-channels-packed (R64, R104, R105) -/

/-- Bit `j` of wire field `k` is the payload bit that the layout names. -/
theorem wireFields_testBit {c : Config} (payload : List Byte) {k j p : Nat} (hk : k < c.nCh) (hj : j < c.chBits)
    (hp : c.rcLayout[c.chBits * k + j]? = some p) :
    ((wireFields c payload).getD k 0).testBit j = payloadBit payload p := by
  rw [wireFields_getD c payload hk, testBit_bitsNat, decide_eq_true hj, Bool.true_and, List.getD_eq_getElem?_getD, hp,
    Option.getD_some]

/-- The payload bit that the layout names for bit `j` of wire field `k` carries that bit of the channel's wire
value. -/
theorem packRc_bit {c : Config} {chs : List Int} (hlen : chs.length = c.nCh) {k j p : Nat} (hk : k < c.nCh)
    (hj : j < c.chBits) (hp : p < 8 * c.rcPayload) (hidx : c.rcLayout.idxOf p = c.chBits * k + j) :
    payloadBit (packRc c chs) p = (chToWire c (chs.getD k 0)).testBit j := by
  rw [packRc, payloadBit_packWire c _ hp, hidx, wireBit_field c _ k hj, List.getD_eq_getElem _ _ (by simpa [hlen]),
    List.getElem_map, List.getD_eq_getElem _ _ (hlen ▸ hk)]

/-- R64's layout puts bit `j` of wire field `k` at payload bit `CH_BITS * k + j`. -/
theorem rcRange_place {c : Config} (h : c.rcLayout = List.range (c.nCh * c.chBits)) {k j : Nat} (hk : k < c.nCh)
    (hj : j < c.chBits) : c.rcLayout[c.chBits * k + j]? = some (c.chBits * k + j) := by
  have hlt : c.chBits * k + j < c.nCh * c.chBits := by
    calc c.chBits * k + j < c.chBits * (k + 1) := by rw [Nat.mul_succ]; omega
      _ ≤ c.chBits * c.nCh := Nat.mul_le_mul_left _ hk
      _ = c.nCh * c.chBits := Nat.mul_comm ..
  rw [h, List.getElem?_range hlt]

/-- Settles O19: the bit is the layout's entry for the field and the bit. -/
theorem rcFieldBits : Obligations.RcFieldBits := by
  intro c k j hwf hk hj
  obtain ⟨p, hp, hlt, hidx⟩ := rcLayout_place hwf hk hj
  exact ⟨p, hlt, hp, fun hrange => Option.some.inj (hp.symm.trans (rcRange_place hrange hk hj)),
    fun payload => wireFields_testBit payload hk hj hp, fun chs hlen => packRc_bit hlen hk hj hlt hidx⟩

/-! ## R64's layout as one little-endian integer -/

/-- Under R64's layout a wire field is a slice of the little-endian integer of the payload. -/
theorem wireFields_eq_leNat {c : Config} (h : c.rcLayout = List.range (c.nCh * c.chBits)) (payload : List Byte) :
    wireFields c payload = (List.range c.nCh).map fun k => leNat payload / 2 ^ (c.chBits * k) % 2 ^ c.chBits := by
  refine List.map_congr_left fun k hk => Nat.eq_of_testBit_eq fun j => ?_
  rw [testBit_bitsNat, Nat.testBit_mod_two_pow, Nat.testBit_div_two_pow, testBit_leNat, Nat.add_comm j]
  by_cases hj : j < c.chBits
  · rw [List.getD_eq_getElem?_getD, rcRange_place h (List.mem_range.1 hk) hj, Option.getD_some]
  · rw [decide_eq_false hj, Bool.false_and, Bool.false_and]

/-- Wire values of `CH_BITS` bits laid end to end are the bits of R64's `P`. -/
theorem wireBit_eq_testBit_packFields {c : Config} {ws : List Nat} (hw : ∀ w ∈ ws, w < 2 ^ c.chBits)
    (hpos : 0 < c.chBits) (n : Nat) : wireBit c ws n = (packFields c.chBits ws).testBit n := by
  rw [wireBit, ← testBit_packFields hw _ (Nat.mod_lt n hpos), Nat.div_add_mod]

/-- Under R64's layout the packed payload is the bytes of `P`. -/
theorem packWire_eq_packFields {c : Config} (h : c.rcLayout = List.range (c.nCh * c.chBits))
    (hsize : c.nCh * c.chBits = 8 * c.rcPayload) {ws : List Nat} (hw : ∀ w ∈ ws, w < 2 ^ c.chBits) :
    packWire c ws = (List.range c.rcPayload).map (byteOf (packFields c.chBits ws)) := by
  refine List.map_congr_left fun k hk => BitVec.eq_of_getLsbD_eq fun b hb => ?_
  have hlt : 8 * k + b < c.nCh * c.chBits := by
    have := List.mem_range.1 hk
    omega
  have hpos : 0 < c.chBits := Nat.pos_of_ne_zero fun h0 => by rw [h0] at hlt; omega
  have hidx : c.rcLayout.idxOf (8 * k + b) = 8 * k + b := by
    simpa [h] using List.nodup_range.idxOf_getElem (8 * k + b) (hlt.trans_eq List.length_range.symm)
  rw [byteOf_getLsbD _ _ hb, BitVec.getLsbD_ofNat, testBit_bitsNat, decide_eq_true hb, Bool.true_and, Bool.true_and,
    hidx, wireBit_eq_testBit_packFields hw hpos]

/-- Settles O20: the wire fields and the packed payload, each against R64's integer. -/
theorem rcLayoutIsLittleEndianInteger : Obligations.RcLayoutIsLittleEndianInteger :=
  fun _ hrange hsize => ⟨wireFields_eq_leNat hrange, fun _ _ hfit =>
    packWire_eq_packFields hrange hsize (List.forall_mem_map.2 hfit)⟩

/-! ## Battery sensor (R66, R109, R110) -/

/-- The payload bytes of each battery field, read in the layout's order. -/
theorem packBt_fields {c : Config} (hwf : c.wf = true) (mv ma mah : Nat) (pct : Byte) :
    (c.btLayout.voltage.map fun k => (packBt c mv ma mah pct).getD k 0) =
        beBytes c.btLayout.voltage.length (scaledField c.btLayout.voltage.length mv c.btVDiv) ∧
      (c.btLayout.current.map fun k => (packBt c mv ma mah pct).getD k 0) =
        beBytes c.btLayout.current.length (scaledField c.btLayout.current.length ma c.btIDiv) ∧
      (c.btLayout.capacity.map fun k => (packBt c mv ma mah pct).getD k 0) =
        beBytes c.btLayout.capacity.length (scaledField c.btLayout.capacity.length mah 1) ∧
      (packBt c mv ma mah pct).getD c.btLayout.remaining 0 = pct := by
  have h := packBt_positions hwf mv ma mah pct
  simp only [BtLayout.positions, btFieldBytes, List.map_append] at h
  obtain ⟨h, hpct⟩ := List.append_inj' h rfl
  obtain ⟨h, hcapacity⟩ := List.append_inj' h (by rw [List.length_map, beBytes_length])
  obtain ⟨hvoltage, hcurrent⟩ := List.append_inj' h (by rw [List.length_map, beBytes_length])
  exact ⟨hvoltage, hcurrent, hcapacity, List.singleton_inj.1 hpct⟩

/-- A scaled measurement in its own width reads back, since it is saturated to that width. -/
theorem beNat_beBytes_scaledField (n v div : Nat) :
    beNat (beBytes n (scaledField n v div)) = min (v / div) (2 ^ (8 * n) - 1) := by
  have hpos : 0 < 2 ^ (8 * n) := by positivity
  rw [beNat_beBytes, scaledField_eq, Nat.mod_eq_of_lt (by omega)]

/-- Under R66's layout the payload is R109's concatenation. -/
theorem packBt_default_layout {c : Config} (hwf : c.wf = true) (h : c.btLayout = {}) (mv ma mah : Nat) (pct : Byte) :
    packBt c mv ma mah pct = be16 (min (mv / c.btVDiv) 65535) ++ be16 (min (ma / c.btIDiv) 65535) ++
      be24 (min mah 16777215) ++ [pct] := by
  obtain ⟨-, -, hcover⟩ := Config.wf_layouts hwf
  have hpositions : c.btLayout.positions = List.range (packBt c mv ma mah pct).length := by
    rw [packBt_length, ← (layoutCovers_iff.1 hcover).1, h]
    rfl
  calc packBt c mv ma mah pct
      = c.btLayout.positions.map fun k => (packBt c mv ma mah pct).getD k 0 := by
        rw [hpositions]
        exact List.ext_getElem (by rw [List.length_map, List.length_range]) fun k hk _ => by simp [hk]
    _ = btFieldBytes c mv ma mah pct := packBt_positions hwf mv ma mah pct
    _ = _ := by
        simp only [btFieldBytes, h, List.length_cons, List.length_nil, scaledField_eq, ← beBytes_two,
          ← beBytes_three, Nat.div_one]
        rfl

/-- A frame of TYPE_TABLE is handed to the outbound stream, and nothing else happens (R101, R110). -/
theorem State.sendFrame_of_mem {t : Byte} {p : List Byte} {s : State} (h : (t, p.length) ∈ s.cfg.typeTable) :
    s.sendFrame t p =
      s.transmit (frameBytes s.cfg.txAddr (lenByte p.length) t p (crc8 s.cfg (t :: p))) := by
  simp only [State.sendFrame, encodeFrame, if_pos h]

theorem typeBt_mem_typeTable (c : Config) : (c.typeBt, c.btPayload) ∈ c.typeTable := by
  simp [Config.typeTable]

/-- Settles O18: the frame sent is that of `packBt`, whose fields stand where the layout puts them. -/
theorem sendBatteryTransmitsFields : Obligations.SendBatteryTransmitsFields := by
  intro s mv ma mah pct hwf
  obtain ⟨hvoltage, hcurrent, hcapacity, hpct⟩ := packBt_fields hwf mv ma mah pct
  have hlen := packBt_length s.cfg mv ma mah pct
  refine ⟨packBt s.cfg mv ma mah pct, _, rfl, ?_, hlen, ?_, ?_, ?_, hpct,
    fun h => packBt_default_layout hwf h mv ma mah pct⟩
  · have hsend := State.sendFrame_of_mem (s := s.begin) (hlen.symm ▸ typeBt_mem_typeTable s.cfg)
    rw [hlen] at hsend
    exact congrArg Host.Outcome.next hsend
  · rw [hvoltage, beNat_beBytes_scaledField]
  · rw [hcurrent, beNat_beBytes_scaledField]
  · rw [hcapacity, beNat_beBytes_scaledField, Nat.div_one]

end Sys2Proof.Machine

/-!
PROOF. The receive parser (40_frame_codec.md R93 to R100): what each byte of a frame does, a whole frame received from
`S_ADDR`, and RX_TICK as RX_BYTE for each byte in order.
-/

namespace Sys2Proof.Machine

/-! ## One received byte (R94 to R98) -/

/-- RX_BYTE answers what the parser answers on the byte. -/
theorem exec_rxByte_of_rxOne {s t : State} {b : Byte} {now : Time} (h : s.begin.rxOne b now = .ok t) :
    exec (.rxByte b now) s = .next t :=
  congrArg conclude h

/-- RX_TICK answers what the parser answers on the bytes. -/
theorem exec_rxTick_of_rxMany {s t : State} {bs : List Byte} {now : Time} (h : s.begin.rxMany now bs = .ok t) :
    exec (.rxTick bs now) s = .next t :=
  congrArg conclude h

/-- Settles O1: R94's case of the parser. -/
theorem addressByteAccepted : Obligations.AddressByteAccepted :=
  fun s b now hs => exec_rxByte_of_rxOne (State.rxOne_addr (s := s.begin) b now hs)

/-- Settles O2: the bytes R95 rejects are those whose LEN is illegal. -/
theorem lengthByteChecked : Obligations.LengthByteChecked := by
  intro s b now hs
  split
  · rename_i hbad
    have hlegal : lenLegal s.cfg b = false := Bool.eq_false_iff.2 fun h => by
      have := lenLegal_iff.1 h
      omega
    exact ⟨lenError b, lenError_class b, exec_rxByte_of_rxOne (State.rxOne_len_bad (s := s.begin) now hs hlegal)⟩
  · rename_i hgood
    have hlegal : lenLegal s.cfg b = true := lenLegal_iff.2 (by omega)
    exact exec_rxByte_of_rxOne (State.rxOne_len_ok (s := s.begin) now hs hlegal)

/-- Settles O3: R96's case of the parser. -/
theorem typeByteStartsChecksum : Obligations.TypeByteStartsChecksum :=
  fun s b now hs => exec_rxByte_of_rxOne (State.rxOne_type (s := s.begin) b now hs)

/-- Settles O4: R97's case of the parser, and what a store leaves of the buffer. -/
theorem payloadByteStored : Obligations.PayloadByteStored := fun s b now hs hbuf hidx =>
  ⟨_, exec_rxByte_of_rxOne (State.rxOne_payload (s := s.begin) b now hs hidx),
    Memory.read_write_same hbuf s.rxIdx b, fun _ ha => Memory.read_write_other s.rxBuf b ha, rfl⟩

/-! ## The checksum byte (R98, 41_link_state_fsm.md R138) -/

/-- A dispatched frame leaves the parser alone. -/
theorem State.frameIn_sameParser (f : Frame) (now : Time) (s : State) : SameParser s (s.frameIn f now) := by
  rw [State.frameIn_eq]
  exact ⟨rfl, rfl, rfl, rfl, rfl, rfl, fun _ => rfl⟩

/-- A dispatched frame that carries as many payload bytes as its LEN byte says has the effect of R138's table. -/
theorem State.frameIn_delivered {f : Frame} {s : State} (now : Time) (htypes : s.cfg.typeRc ≠ s.cfg.typeLs)
    (hlen : f.len.toNat - 2 = f.payload.length) (hevents : s.out.events = []) :
    Delivered f.type f.payload now s (s.frameIn f now) := by
  have hrc : rcHit s.cfg f = isRcFrame s.cfg f.type f.payload := by
    rw [rcHit, isRcFrame, hlen, Bool.decide_and]
  have hls : lsHit s.cfg f = isLsFrame s.cfg f.type f.payload := by
    by_cases ht : f.type = s.cfg.typeLs
    · simp [lsHit, isLsFrame, rcHit, hlen, ht, htypes.symm]
    · simp [lsHit, isLsFrame, ht]
  rw [State.frameIn_eq, hrc, hls, hevents]
  exact ⟨⟨rfl, rfl, rfl⟩, rfl, rfl, rfl, rfl, rfl⟩

/-- What a matching checksum byte does (R98): the parser awaits an address with its registers stale, and the frame
received has its effect. -/
theorem State.rxOne_crc_delivers {s : State} {b : Byte} {payload : List Byte} (now : Time) (hwf : s.cfg.wf = true)
    (hs : s.rxState = .crc) (hlen : s.rxLen.toNat - 2 ≤ s.cfg.maxPayload) (hevents : s.out.events = [])
    (hpayload : s.received (s.rxLen.toNat - 2) = payload) (hb : b = crcFinal s.cfg s.rxCrc) :
    ∃ t, s.rxOne b now = .ok t ∧ SameParser { s with rxState := .addr } t ∧ Delivered s.rxType payload now s t := by
  obtain ⟨htypes, -, -⟩ := Config.wf_types hwf
  have hcount : s.rxLen.toNat - 2 = (s.received (s.rxLen.toNat - 2)).length := by
    rw [State.received, List.length_map, List.length_range]
  have hdelivered := State.frameIn_delivered (f := s.frameOf b) (s := { s with rxState := .addr }) now htypes hcount
    hevents
  subst hpayload
  exact ⟨_, State.rxOne_crc_match now hs hb hlen, State.frameIn_sameParser .., { hdelivered with }⟩

/-- Settles O5: R22 bounds the LEN byte, so the frame of a matching checksum is loaded and dispatched. -/
theorem checksumByteDecides : Obligations.ChecksumByteDecides := by
  intro s b now h hs
  split
  · rename_i hb
    obtain ⟨-, hlen⟩ := h.lenBound (.inr (.inr hs))
    obtain ⟨t, ht, hparser, hdelivered⟩ := State.rxOne_crc_delivers (s := s.begin) now h.cfgWf hs
      (Nat.sub_le_of_le_add hlen) rfl rfl hb
    exact ⟨t, exec_rxByte_of_rxOne ht, hparser.1, hparser, { hdelivered with }⟩
  · rename_i hb
    exact ⟨.checksumMismatch, rfl, exec_rxByte_of_rxOne (State.rxOne_crc_mismatch (s := s.begin) now hs hb)⟩

/-! ## A whole frame from `S_ADDR` (R60, R94 to R98) -/

/-- The buffer after the bytes `bs` are stored from index `n` on. -/
def Memory.writeFrom (m : Memory) (n : Nat) : List Byte → Memory
  | [] => m
  | b :: bs => Memory.writeFrom (m.write n b) (n + 1) bs

/-- Bytes stored behind the first `n` read back behind them. -/
theorem Memory.read_range_writeFrom {m : Memory} (hm : m.wf = true) (n : Nat) (bs : List Byte) :
    (List.range (n + bs.length)).map (m.writeFrom n bs).read = (List.range n).map m.read ++ bs := by
  induction bs generalizing m n with
  | nil => rw [List.append_nil]; rfl
  | cons b bs ih =>
    rw [List.length_cons, Nat.add_comm bs.length, ← Nat.add_assoc, Memory.writeFrom, ih (Memory.write_wf hm n b),
      Memory.read_range_write hm, List.append_assoc]
    rfl

/-- The parser after the payload bytes `bs`: they are stored in order and enter the checksum register, and the parser
awaits the checksum exactly when all bytes the LEN byte announces are there (R97). -/
def State.afterPayload (bs : List Byte) (s : State) : State :=
  { s with
    rxBuf := s.rxBuf.writeFrom s.rxIdx bs, rxCrc := crcRun s.cfg s.rxCrc bs, rxIdx := s.rxIdx + bs.length,
    rxState := if s.rxIdx + bs.length = s.rxLen.toNat - 2 then .crc else .payload }

theorem State.afterPayload_cons (b : Byte) (bs : List Byte) (s : State) :
    (s.afterPayload [b]).afterPayload bs = s.afterPayload (b :: bs) := by
  simp only [State.afterPayload, List.length_cons, List.length_nil, Nat.zero_add, Nat.add_assoc, Nat.add_comm 1]
  rfl

/-- Payload bytes are received one by one, as long as the LEN byte announces them. -/
theorem State.rxMany_payload {s : State} {bs : List Byte} (now : Time)
    (hs : s.rxState = if s.rxIdx = s.rxLen.toNat - 2 then .crc else .payload)
    (hlen : s.rxLen.toNat - 2 ≤ s.cfg.maxPayload) (hbs : s.rxIdx + bs.length ≤ s.rxLen.toNat - 2) :
    s.rxMany now bs = .ok (s.afterPayload bs) := by
  induction bs generalizing s with
  | nil =>
    rw [State.afterPayload, List.length_nil, Nat.add_zero, ← hs]
    rfl
  | cons b bs ih =>
    rw [List.length_cons] at hbs
    rw [if_neg (by omega)] at hs
    have hb : s.rxOne b now = .ok (s.afterPayload [b]) := State.rxOne_payload b now hs (by omega)
    have hbs : (s.afterPayload [b]).rxIdx + bs.length ≤ s.rxLen.toNat - 2 := by
      rwa [Nat.add_comm bs.length, ← Nat.add_assoc] at hbs
    simp only [State.rxMany, hb]
    rw [ih (s := s.afterPayload [b]) rfl hlen hbs, State.afterPayload_cons]

theorem State.rxMany_singleton (b : Byte) (now : Time) (s : State) : s.rxMany now [b] = s.rxOne b now := by
  simp only [State.rxMany]
  cases s.rxOne b now <;> rfl

/-- After a LEN byte, the type and the payload it announces leave the parser at the checksum byte. -/
theorem State.rxMany_body {s : State} {payload : List Byte} (t ck : Byte) (now : Time) (hs : s.rxState = .type)
    (hlen : s.rxLen.toNat = payload.length + 2) (hpay : payload.length ≤ s.cfg.maxPayload) :
    s.rxMany now (t :: (payload ++ [ck])) = ((s.rxTypeByte t).afterPayload payload).rxOne ck now := by
  have hcount : s.rxLen.toNat - 2 = payload.length := by rw [hlen, Nat.add_sub_cancel]
  have hempty : s.rxLen = 2 ↔ 0 = s.rxLen.toNat - 2 := by
    rw [hcount, ← BitVec.toNat_inj, hlen]
    simp [eq_comm]
  have hpayload : State.rxMany now payload (s.rxTypeByte t) = .ok ((s.rxTypeByte t).afterPayload payload) :=
    State.rxMany_payload now (if_congr hempty rfl rfl) (hcount.le.trans hpay) (by simp [hcount])
  simp only [State.rxMany, State.rxOne_type t now hs]
  rw [State.rxMany_append, hpayload]
  exact State.rxMany_singleton ck now _

/-- The parser after the address, LEN, type and payload bytes of a frame, with its checksum byte still to come. -/
def State.beforeChecksum (a t : Byte) (payload : List Byte) (s : State) : State :=
  { s with
    rxState := .crc, rxAddr := a, rxLen := lenByte payload.length, rxType := t, rxIdx := payload.length,
    rxCrc := crcRun s.cfg s.cfg.crcInit (t :: payload), rxBuf := s.rxBuf.writeFrom 0 payload }

/-- The register before the checksum byte stands for the checksum of the type and the payload (R91, R98). -/
theorem State.crcFinal_beforeChecksum (a t : Byte) (payload : List Byte) (s : State) :
    crcFinal s.cfg (s.beforeChecksum a t payload).rxCrc = crc8 s.cfg (t :: payload) := rfl

/-- The buffer before the checksum byte holds the payload. -/
theorem State.received_beforeChecksum {s : State} (hbuf : s.rxBuf.wf = true) (a t : Byte) (payload : List Byte) :
    (s.beforeChecksum a t payload).received payload.length = payload := by
  have h := Memory.read_range_writeFrom hbuf 0 payload
  rwa [Nat.zero_add] at h

/-- A frame received between frames comes down to its checksum byte. -/
theorem State.rxMany_frameBytes {s : State} {payload : List Byte} (a t ck : Byte) (now : Time)
    (hwf : s.cfg.wf = true) (hs : s.rxState = .addr) (hpay : payload.length ≤ s.cfg.maxPayload) :
    s.rxMany now (frameBytes a (lenByte payload.length) t payload ck) =
      (s.beforeChecksum a t payload).rxOne ck now := by
  obtain ⟨-, -, -, -, hmax⟩ := Config.wf_sizes hwf
  have hlen : (lenByte payload.length).toNat = payload.length + 2 := lenByte_toNat (hpay.trans hmax)
  rw [frameBytes, State.rxMany_header a _ now hs (lenLegal_lenByte hwf hpay),
    State.rxMany_body (s := { s with rxAddr := a, rxLen := lenByte payload.length, rxState := .type }) t ck now rfl hlen
      hpay]
  simp only [State.afterPayload, State.rxTypeByte_rxIdx, State.rxTypeByte_rxLen, hlen, Nat.zero_add,
    Nat.add_sub_cancel, if_true]
  rfl

/-- A frame with the matching checksum, received between frames: it is in the parser's registers, and it has its whole
effect. -/
theorem State.receive_frame_match {s : State} {payload : List Byte} (a t : Byte) (now : Time)
    (hwf : s.cfg.wf = true) (hbuf : s.rxBuf.wf = true) (hs : s.rxState = .addr)
    (hpay : payload.length ≤ s.cfg.maxPayload) :
    ∃ u, s.begin.rxMany now (frameBytes a (lenByte payload.length) t payload (crc8 s.cfg (t :: payload))) = .ok u ∧
      u.rxState = .addr ∧ u.rxAddr = a ∧ u.rxType = t ∧ Delivered t payload now s u := by
  obtain ⟨-, -, -, -, hmax⟩ := Config.wf_sizes hwf
  have hcount : (lenByte payload.length).toNat - 2 = payload.length := by
    rw [lenByte_toNat (hpay.trans hmax), Nat.add_sub_cancel]
  have hreceived : (s.begin.beforeChecksum a t payload).received ((lenByte payload.length).toNat - 2) = payload := by
    rw [hcount]
    exact State.received_beforeChecksum (s := s.begin) hbuf a t payload
  obtain ⟨u, hu, ⟨hstate, haddr, -, htype, -⟩, hdelivered⟩ :=
    State.rxOne_crc_delivers (s := s.begin.beforeChecksum a t payload) now hwf rfl (hcount.le.trans hpay) rfl
      hreceived (State.crcFinal_beforeChecksum a t payload s.begin).symm
  exact ⟨u, (State.rxMany_frameBytes (s := s.begin) a t _ now hwf hs hpay).trans hu, hstate, haddr, htype,
    { hdelivered with }⟩

/-- A frame with another checksum byte, received between frames, has no effect outside the parser (R98). -/
theorem State.receive_frame_mismatch {s : State} {payload : List Byte} {ck : Byte} (a t : Byte) (now : Time)
    (hwf : s.cfg.wf = true) (hs : s.rxState = .addr) (hpay : payload.length ≤ s.cfg.maxPayload)
    (hck : ck ≠ crc8 s.cfg (t :: payload)) :
    ∃ u, s.begin.rxMany now (frameBytes a (lenByte payload.length) t payload ck) = .ok u ∧
      u.rxState = .addr ∧ SameOutsideParser s u ∧ u.out = { errors := [.checksumMismatch] } :=
  ⟨_, (State.rxMany_frameBytes (s := s.begin) a t ck now hwf hs hpay).trans
    (State.rxOne_crc_mismatch (s := s.begin.beforeChecksum a t payload) now rfl hck), rfl, .refl s, rfl⟩

/-- Settles O9: the checksum byte decides between the frame's whole effect and none. -/
theorem frameAcceptedIffChecksumMatches : Obligations.FrameAcceptedIffChecksumMatches := by
  intro s a t ck payload now hwf hbuf hs hpay
  by_cases hck : ck = crc8 s.cfg (t :: payload)
  · obtain ⟨u, hu, hstate, -, -, hdelivered⟩ := State.receive_frame_match a t now hwf hbuf hs hpay
    rw [← hck] at hu
    exact ⟨u, exec_rxTick_of_rxMany hu, hstate, by rwa [if_pos hck]⟩
  · obtain ⟨u, hu, hstate, hsame, hout⟩ := State.receive_frame_mismatch a t now hwf hs hpay hck
    exact ⟨u, exec_rxTick_of_rxMany hu, hstate, by rw [if_neg hck]; exact ⟨hsame, by rw [hout]⟩⟩

/-! ## The round trip of ENCODE (R101 to R103) -/

/-- Every payload size of TYPE_TABLE is at most `MAX_PAYLOAD` (R6). -/
theorem Config.le_maxPayload_of_mem_typeTable {c : Config} (hwf : c.wf = true) {t : Byte} {n : Nat}
    (h : (t, n) ∈ c.typeTable) : n ≤ c.maxPayload := by
  obtain ⟨-, hrc, hls, hbt, -⟩ := Config.wf_sizes hwf
  simp only [Config.typeTable, List.mem_cons, Prod.mk.injEq, List.not_mem_nil, or_false] at h
  obtain ⟨-, rfl⟩ | ⟨-, rfl⟩ | ⟨-, rfl⟩ := h
  exacts [hrc, hls, hbt]

/-- ENCODE of a pair of TYPE_TABLE (R101). -/
theorem exec_encode_of_mem {s : State} {t : Byte} {payload : List Byte}
    (h : (t, payload.length) ∈ s.cfg.typeTable) :
    exec (.encode t payload) s = .next (s.begin.answer (.bytes
      (frameBytes s.cfg.txAddr (lenByte payload.length) t payload (crc8 s.cfg (t :: payload))))) := by
  simp only [exec, execEncode, encodeFrame, if_pos h]

/-- ENCODE of any other pair (R102). -/
theorem exec_encode_of_not_mem {s : State} {t : Byte} {payload : List Byte}
    (h : (t, payload.length) ∉ s.cfg.typeTable) :
    exec (.encode t payload) s = .next (s.begin.raiseError .encodeSize) := by
  simp only [exec, execEncode, encodeFrame, if_neg h]

/-- Settles O11: bytes are returned for a pair of TYPE_TABLE only, and they are a frame with the matching checksum. -/
theorem encodedFrameIsReceivedBack : Obligations.EncodedFrameIsReceivedBack := by
  intro s r v t payload bs now hcfg hwf hbuf hr hencode hbytes
  by_cases hmem : (t, payload.length) ∈ s.cfg.typeTable
  · cases (exec_encode_of_mem hmem).symm.trans hencode
    cases hbytes
    have hpay := Config.le_maxPayload_of_mem_typeTable hwf hmem
    rw [← hcfg] at hwf hpay ⊢
    obtain ⟨u, hu, hrest⟩ := State.receive_frame_match r.cfg.txAddr t now hwf hbuf hr hpay
    exact ⟨u, exec_rxTick_of_rxMany hu, hrest⟩
  · cases (exec_encode_of_not_mem hmem).symm.trans hencode
    cases hbytes

/-- Settles O16: the two cases of TYPE_TABLE. -/
theorem encodeReturnsFrameOrError : Obligations.EncodeReturnsFrameOrError := by
  intro s t payload
  split
  · rename_i hmem
    exact ⟨_, rfl, exec_encode_of_mem hmem⟩
  · rename_i hmem
    exact ⟨_, exec_encode_of_not_mem hmem, rfl, rfl, rfl, rfl, rfl⟩

end Sys2Proof.Machine

/-!
PROOF. Received bytes in parts (40_frame_codec.md R100, 30_encoding.md R78, 20_memory.md R51): RX_TICK is RX_BYTE for
each byte in order, and taking wire bytes frame by frame reaches the state of one RX_TICK of them all.
-/

namespace Sys2Proof.Machine

/-! ## RX_TICK byte by byte (R100) -/

/-- A state is its own beginning of an operation, with its outputs put back. -/
theorem State.reboundary_begin (s : State) : s.begin.reboundary s.pending s.outbound s.out = s := by
  simp [State.reboundary, State.begin]

/-- Bytes received after an operation's outputs are received as in an operation of their own, whose notifications and
errors come after those outputs. -/
theorem State.rxMany_begin (now : Time) (bs : List Byte) (s : State) :
    s.rxMany now bs = (s.begin.rxMany now bs).map (State.reboundary s.pending s.outbound s.out) := by
  rw [← State.rxMany_reboundary, State.reboundary_begin]

/-- Settles O7: the bytes after the first are received after the first byte's outputs. -/
theorem rxTickIsRxByteInOrder : Obligations.RxTickIsRxByteInOrder := by
  intro s now
  refine ⟨rfl, fun b bs t u ht hu => ?_⟩
  have ht : s.begin.rxOne b now = .ok t := conclude_next ht
  have hu : t.begin.rxMany now bs = .ok u := conclude_next hu
  obtain ⟨-, -, -, htx, hmix, hresult⟩ := State.rxOne_boundary ht
  obtain ⟨-, hpending, houtbound, -⟩ := State.rxMany_boundary hu
  have hbytes : s.begin.rxMany now (b :: bs) = .ok (u.reboundary t.pending t.outbound t.out) := by
    simp only [State.rxMany, ht]
    rw [State.rxMany_begin, hu]
    rfl
  simp only [State.begin_pending, State.begin_outbound] at hpending houtbound
  rw [exec_rxTick_of_rxMany hbytes, State.reboundary, htx, hmix, hresult, ← hpending, ← houtbound]
  rfl

/-! ## Wire bytes frame by frame (R78, R51) -/

/-- A state without what is presented to it and without the outputs of its latest operation. -/
def State.quiet (s : State) : State := { s with pending := [], out := {} }

/-- What received bytes do to the rest of the state depends on the rest of the state only. -/
theorem State.rxMany_quiet (now : Time) (bs : List Byte) (s : State) :
    (s.rxMany now bs).map State.quiet = (s.quiet.rxMany now bs).map State.quiet := by
  have hs : s.quiet.reboundary s.pending s.outbound s.out = s := by simp [State.reboundary, State.quiet]
  conv_lhs => rw [← hs, State.rxMany_reboundary]
  cases ht : s.quiet.rxMany now bs with
  | error f => rfl
  | ok t =>
    obtain ⟨-, -, houtbound, -⟩ := State.rxMany_boundary ht
    have houtbound : s.outbound = t.outbound := houtbound.symm
    simp only [Except.map, State.reboundary, State.quiet, houtbound]

theorem State.rxMany_quiet_congr (now : Time) (bs : List Byte) {s t : State} (h : s.quiet = t.quiet) :
    (s.rxMany now bs).map State.quiet = (t.rxMany now bs).map State.quiet := by
  rw [State.rxMany_quiet, h, ← State.rxMany_quiet]

theorem State.rxMany_quiet_of_ok {s s' t : State} {now : Time} {bs : List Byte} (ht : s'.rxMany now bs = .ok t)
    (h : s.quiet = s'.quiet) : (s.rxMany now bs).map State.quiet = .ok t.quiet := by
  rw [State.rxMany_quiet_congr now bs h, ht]
  rfl

/-- Bytes behind others may be received from any state that agrees with the one the others lead to. -/
theorem State.rxMany_append_quiet {s t : State} {now : Time} {xs : List Byte} (ys : List Byte)
    (h : (s.rxMany now xs).map State.quiet = .ok t.quiet) :
    (s.rxMany now (xs ++ ys)).map State.quiet = (t.rxMany now ys).map State.quiet := by
  rw [State.rxMany_append]
  cases hs : s.rxMany now xs with
  | error f =>
    rw [hs] at h
    cases h
  | ok u =>
    rw [hs] at h
    exact State.rxMany_quiet_congr now ys (Except.ok.inj h)

/-- An instruction that is encoded as wire bytes is the receipt of these bytes, and there is one at least. -/
theorem exec_of_encode_wire {i : Instr} {s : State} {bs : List Byte} {now : Time}
    (h : encode s.cfg i = .wire bs now) : exec i s = conclude (s.begin.rxMany now bs) ∧ bs ≠ [] := by
  cases i with
  | frameRcChannelsPacked | frameLinkStatistics | frameBatterySensor | frameOther =>
    cases h
    exact ⟨rfl, List.cons_ne_nil _ _⟩
  | _ => cases h

/-- A step on wire bytes receives the bytes in front, at least one if there is any, and leaves the others presented. -/
theorem step_wire {s : State} {bytes : List Byte} {now : Time} (hwf : s.cfg.wf = true)
    (hnow : s.cfg.fitsTime now = true) (h : s.pending = [.wire bytes now]) :
    ∃ frame rest, bytes = frame ++ rest ∧ (frame = [] → rest = []) ∧
      step s = conclude (State.rxMany now frame { s with pending := leftover rest now, out := {} }) := by
  have hdecode : decode s.cfg (.wire bytes now) =
      .ok ((decodeWire s.cfg bytes now).1, leftover (decodeWire s.cfg bytes now).2 now) := if_pos hnow
  have hstep := step_run h hdecode
  rw [List.append_nil] at hstep
  have hkeep := wireDecodeKeepsEveryByte s.cfg bytes now hwf (Config.fitsTime_iff.1 hnow)
  cases hencode : encode s.cfg (decodeWire s.cfg bytes now).1 with
  | wire bs n =>
    rw [hencode] at hkeep
    obtain ⟨hbytes, rfl, -⟩ := hkeep
    obtain ⟨hexec, hne⟩ := exec_of_encode_wire
      (s := { s with pending := leftover (decodeWire s.cfg bytes n).2 n }) hencode
    exact ⟨bs, _, hbytes.symm, fun e => absurd e hne, hstep.trans hexec⟩
  | port op lanes =>
    rw [hencode] at hkeep
    rw [hkeep] at hstep
    exact ⟨bytes, [], (List.append_nil bytes).symm, fun _ => rfl, hstep⟩

/-- From a good state a step on wire bytes completes, and is the receipt of the bytes in front but for the presentation
and the outputs. -/
theorem State.Inv.step_wire {s : State} (h : s.Inv) {bytes : List Byte} {now : Time}
    (hnow : s.cfg.fitsTime now = true) (hp : s.pending = [.wire bytes now]) :
    ∃ frame rest t, bytes = frame ++ rest ∧ (frame = [] → rest = []) ∧ step s = .next t ∧ t.Inv ∧
      t.cfg = s.cfg ∧ t.pending = leftover rest now ∧ (s.rxMany now frame).map State.quiet = .ok t.quiet := by
  obtain ⟨frame, rest, hbytes, hfront, hstep⟩ := Machine.step_wire h.cfgWf hnow hp
  have hinv : State.Inv { s with pending := leftover rest now, out := {} } := { h with }
  obtain ⟨t, ht, htinv⟩ := hinv.rxMany_total hnow frame
  obtain ⟨hcfg, hpending, -⟩ := State.rxMany_boundary ht
  exact ⟨frame, rest, t, hbytes, hfront, hstep.trans (congrArg conclude ht), htinv, hcfg, hpending,
    State.rxMany_quiet_of_ok ht rfl⟩

/-- From a good state some number of steps takes the wire bytes presented, and what it reaches is what their receipt
in one operation reaches, but for the outputs. -/
theorem State.Inv.run_wire {s : State} (h : s.Inv) {bytes : List Byte} {now : Time}
    (hnow : s.cfg.fitsTime now = true) (hp : s.pending = [.wire bytes now]) :
    ∃ (k : Nat) (u : State), Host.Core.run Sys2Proof.core k s = .next u ∧ u.pending = [] ∧
      (s.rxMany now bytes).map State.quiet = .ok u.quiet := by
  induction hn : bytes.length using Nat.strong_induction_on generalizing s bytes with
  | _ n ih =>
    obtain ⟨frame, rest, t, rfl, hfront, hstep, htinv, hcfg, hpending, hframe⟩ := h.step_wire hnow hp
    rw [State.rxMany_append_quiet rest hframe]
    cases rest with
    | nil => exact ⟨1, t, run_succ hstep, hpending, rfl⟩
    | cons b bs =>
      have hshorter : (b :: bs).length < n := by
        have hpos : 0 < frame.length := List.length_pos_iff.2 fun e => List.cons_ne_nil b bs (hfront e)
        rw [← hn, List.length_append]
        omega
      obtain ⟨k, u, hrun, hu, hreach⟩ := ih _ hshorter htinv (hcfg ▸ hnow) hpending rfl
      exact ⟨k + 1, u, (run_succ hstep).trans hrun, hu, hreach⟩

/-- Settles O48: one RX_TICK starts from the same state but for the presentation and the outputs. -/
theorem wireStepsRefineRxTick : Obligations.WireStepsRefineRxTick := by
  intro s bytes now h hnow hp
  have hnow := Config.fitsTime_iff.2 hnow
  obtain ⟨k, u, hrun, hu, hreach⟩ := h.run_wire hnow hp
  obtain ⟨v, hv, -, ⟨-, hvp, -⟩, -⟩ := (h.withPending []).receive hnow bytes
  have hquiet : u.quiet = v.quiet := Except.ok.inj (hreach.symm.trans (State.rxMany_quiet_of_ok hv rfl))
  have hu' : { u with out := {} } = u.quiet := by rw [State.quiet, ← hu]
  have hv' : { v with out := {} } = v.quiet := by rw [State.quiet, hvp]
  exact ⟨k, u, v, hrun, hu, exec_rxTick_of_rxMany hv, hu'.trans (hquiet.trans hv'.symm)⟩

end Sys2Proof.Machine

/-!
PROOF. The rest of 40_frame_codec.md: the detection power of the checksum (R92), the Channel Store through packing and
unpacking (R105), and Channel Store access (R111 to R113).
-/

namespace Sys2Proof.Machine

/-! ## CRC-8 (R90 to R92) -/

/-- A bit of the register after one shift: the bit below it, and the polynomial's where the top bit was set. -/
theorem getLsbD_crcShift (poly c : Byte) {i : Nat} (hi : i < 8) :
    (crcShift poly c).getLsbD i = ((!decide (i < 1) && c.getLsbD (i - 1)) ^^ (c.getLsbD 7 && poly.getLsbD i)) := by
  unfold crcShift
  cases htop : c.getLsbD 7
  · simp only [Bool.false_eq_true, if_false, BitVec.getLsbD_shiftLeft, hi, decide_true, Bool.true_and, Bool.false_and,
      Bool.xor_false]
  · simp only [if_true, BitVec.getLsbD_xor, BitVec.getLsbD_shiftLeft, hi, decide_true, Bool.true_and]

/-- Under a polynomial with constant term 1 a shift loses nothing: the new lowest bit is the old top bit. -/
theorem crcShift_injective {poly : Byte} (hpoly : poly.getLsbD 0 = true) : Function.Injective (crcShift poly) := by
  intro x y h
  have hbit : ∀ i < 8, ((!decide (i < 1) && x.getLsbD (i - 1)) ^^ (x.getLsbD 7 && poly.getLsbD i)) =
      ((!decide (i < 1) && y.getLsbD (i - 1)) ^^ (y.getLsbD 7 && poly.getLsbD i)) := fun i hi => by
    rw [← getLsbD_crcShift poly x hi, ← getLsbD_crcShift poly y hi, h]
  have htop : x.getLsbD 7 = y.getLsbD 7 := by
    have hlow := hbit 0 (by omega)
    rw [hpoly, Bool.and_true, Bool.and_true] at hlow
    simpa using hlow
  refine BitVec.eq_of_getLsbD_eq fun i hi => ?_
  rcases Nat.lt_or_ge i 7 with hlt | hge
  · have hnext := hbit (i + 1) (by omega)
    rw [htop] at hnext
    simpa using hnext
  · obtain rfl : i = 7 := by omega
    exact htop

theorem crcShifts_injective {poly : Byte} (hpoly : poly.getLsbD 0 = true) (n : Nat) :
    Function.Injective (crcShifts poly n) := by
  induction n with
  | zero => exact Function.injective_id
  | succ n ih => exact ih.comp (crcShift_injective hpoly)

/-- The same byte into different registers leaves them different. -/
theorem crc8Byte_injective_register {c : Config} (hpoly : c.crcPoly.getLsbD 0 = true) (b : Byte) :
    Function.Injective fun r => crc8Byte c r b := fun _ _ h =>
  (BitVec.xor_left_inj _).1 (crcShifts_injective hpoly 8 h)

/-- Different bytes into the same register leave it different. -/
theorem crc8Byte_injective_byte {c : Config} (hpoly : c.crcPoly.getLsbD 0 = true) (r : Byte) :
    Function.Injective (crc8Byte c r) := fun x y h => by
  have h : (if c.crcRefIn then reflect x else x) = if c.crcRefIn then reflect y else y :=
    (BitVec.xor_right_inj r).1 (crcShifts_injective hpoly 8 h)
  cases hr : c.crcRefIn <;> simp only [hr, if_true, Bool.false_eq_true, if_false] at h
  · exact h
  · exact reflect_injective h

/-- The same bytes into different registers leave them different. -/
theorem crcRun_injective {c : Config} (hpoly : c.crcPoly.getLsbD 0 = true) (bs : List Byte) :
    Function.Injective fun r => crcRun c r bs := by
  induction bs with
  | nil => exact Function.injective_id
  | cons b bs ih => exact ih.comp (crc8Byte_injective_register hpoly b)

theorem crcRun_append_cons (c : Config) (r : Byte) (before after : List Byte) (x : Byte) :
    crcRun c r (before ++ x :: after) = crcRun c (crc8Byte c (crcRun c r before) x) after :=
  List.foldl_append

/-- Settles O40: the byte that differs makes the registers differ, the bytes behind it and the final step keep them
so. -/
theorem crcDetectsOneByteError : Obligations.CrcDetectsOneByteError := by
  intro c before after x y hpoly hne heq
  have hrun := crcFinal_injective c heq
  rw [crcRun_append_cons, crcRun_append_cons] at hrun
  exact hne (crc8Byte_injective_byte hpoly _ (crcRun_injective hpoly after hrun))

theorem crcShifts_zero (poly : Byte) (n : Nat) : crcShifts poly n 0 = 0 := by
  induction n with
  | zero => rfl
  | succ n ih => exact ih

/-- Settles O41: the checksum byte cancels the register it is the value of. -/
theorem crcResidueIsZero : Obligations.CrcResidueIsZero := by
  intro c s hin hout hxor
  have hfinal : ∀ r, crcFinal c r = r := fun r => by simp [crcFinal, hout, hxor]
  rw [crc8, crc8, hfinal, hfinal, crcRun_append_cons]
  simp only [crcRun, List.foldl_nil, crc8Byte, hin, Bool.false_eq_true, if_false, BitVec.xor_self]
  exact crcShifts_zero _ _

/-! ## The Channel Store on the wire (R105, R106, R113) -/

theorem wireToCh_default {c : Config} (h : c.wireOverrides = []) (w : Nat) : wireToCh c w = w := by
  rw [wireToCh, h]
  rfl

/-- The default `ch_to_wire` leaves a value of `CH_BITS` bits as it is (R106). -/
theorem chToWire_default {c : Config} (h : c.chOverrides = []) {v : Int} (h0 : 0 ≤ v) (hv : v < 2 ^ c.chBits) :
    (chToWire c v : Int) = v ∧ chToWire c v < 2 ^ c.chBits := by
  have hsat : sat v 0 (2 ^ c.chBits - 1) = v := by
    rw [sat_eq v (by omega)]
    omega
  have hwire : chToWire c v = v.toNat := by
    rw [chToWire, h, hsat]
    rfl
  rw [hwire, ← Nat.cast_lt (α := Int), Int.toNat_of_nonneg h0]
  exact ⟨rfl, by exact_mod_cast hv⟩

/-- Settles O21: packing keeps the wire values, and each wire value is its channel. -/
theorem unpackAfterPack : Obligations.UnpackAfterPack := by
  intro c chs hwf hwo hco hlen hrange
  have hwire : ∀ v ∈ chs, (chToWire c v : Int) = v ∧ chToWire c v < 2 ^ c.chBits := fun v hv =>
    chToWire_default hco (hrange v hv).1 (hrange v hv).2
  have hfields : wireFields c (packRc c chs) = chs.map (chToWire c) :=
    wireFields_packWire hwf (by rw [List.length_map, hlen]) (List.forall_mem_map.2 fun v hv => (hwire v hv).2)
  rw [unpackRc, hfields, List.map_map]
  refine (List.map_congr_left fun v hv => ?_).trans (List.map_id chs)
  obtain ⟨hvalue, hlt⟩ := hwire v hv
  calc c.toCh (wireToCh c (chToWire c v))
      = wireToCh c (chToWire c v) := Config.toCh_of_fits (Config.wf_wire hwf hlt).2
    _ = v := by rw [wireToCh_default hwo, hvalue]

theorem typeRc_mem_typeTable (c : Config) : (c.typeRc, c.rcPayload) ∈ c.typeTable := List.mem_cons_self ..

/-- Settles O17: the packed store has the size of the RC row, so its frame is sent. -/
theorem sendChannelsTransmitsStore : Obligations.SendChannelsTransmitsStore := by
  intro s
  have hlen := packRc_length s.cfg s.ch
  have hsend := State.sendFrame_of_mem (s := s.begin) (hlen.symm ▸ typeRc_mem_typeTable s.cfg)
  rw [hlen] at hsend
  exact ⟨_, rfl, congrArg Host.Outcome.next hsend⟩

/-! ## Channel Store access (R111, R112) -/

/-- Settles O23: the entry named reads the saturated value, which fits `CH_W` bits. -/
theorem setChannelSaturates : Obligations.SetChannelSaturates := by
  intro s i v ⟨hlen, hrange, _⟩
  split
  · rename_i hi
    obtain ⟨-, hlo, hhi, -⟩ := Config.wfRange_parts hrange
    have hindex : s.cfg.chanIndex i = true := Config.chanIndex_iff.2 hi
    obtain ⟨hmin, hmax⟩ := sat_bounds v.toInt (hlo.trans hhi)
    refine ⟨_, rfl, by rw [State.chWrite_eq]; rfl, ?_, State.chWrite_length .., fun j => State.chRead_chWrite_other _⟩
    rw [State.chRead_chWrite_same (s := s.begin) _ hindex hlen, ← sat_eq v.toInt (hlo.trans hhi)]
    exact congrArg some (Config.toCh_of_range hrange hmin hmax)
  · rename_i hi
    have hindex : ¬s.cfg.chanIndex i = true := fun h => hi (Config.chanIndex_iff.1 h)
    exact congrArg Host.Outcome.next (if_neg hindex)

/-- Settles O24: an index in `1 .. N_CH` names an entry, since the store has `N_CH` of them. -/
theorem getChannelReadsEntry : Obligations.GetChannelReadsEntry := by
  intro s i hlen
  split
  · rename_i h
    obtain ⟨h1, hn, hlt⟩ := h
    have hread : s.chRead i = some s.ch[i - 1] := by
      rw [State.chRead, if_pos (Config.chanIndex_iff.2 ⟨h1, hn⟩), List.getElem?_eq_getElem hlt]
    simp only [exec, execGetChannel, hread]
    rfl
  · rename_i h
    have hindex : s.cfg.chanIndex i = false := Bool.eq_false_iff.2 fun hi => by
      have := Config.chanIndex_iff.1 hi
      exact h ⟨this.1, this.2, by omega⟩
    simp only [exec, execGetChannel, State.chRead_out hindex]

end Sys2Proof.Machine

/-!
PROOF. The statements of 41_link_state_fsm.md: what raises and lowers the link and how it is notified (R131, R136,
R139), the rows of the wire frames received between frames (R131 to R135), and the two read operations (R140, R141).
-/

namespace Sys2Proof.Machine

/-! ## Link notifications (R139) -/

/-- The link after the notifications `es`, starting as `up`: as the last link notification says. -/
def linkAfter (up : Bool) (es : List Event) : Bool :=
  ((es.filter fun e => decide (e ≠ .channels)).getLast?.map fun e => decide (e = .linkUp)).getD up

@[simp] theorem linkAfter_nil (up : Bool) : linkAfter up [] = up := rfl

theorem linkAfter_append (up : Bool) (xs ys : List Event) :
    linkAfter up (xs ++ ys) = linkAfter (linkAfter up xs) ys := by
  unfold linkAfter
  rw [List.filter_append, List.getLast?_append]
  cases (ys.filter fun e => decide (e ≠ .channels)).getLast? <;> rfl

theorem linkAfter_cons (up : Bool) (e : Event) (es : List Event) :
    linkAfter up (e :: es) = linkAfter (linkAfter up [e]) es :=
  linkAfter_append up [e] es

/-- A link that ends Up without `ev_link_up` started Up. -/
theorem linkUp_mem_of_linkAfter {es : List Event} (h : linkAfter false es = true) : Event.linkUp ∈ es := by
  unfold linkAfter at h
  cases hlast : (es.filter fun e => decide (e ≠ .channels)).getLast? with
  | none =>
    rw [hlast] at h
    cases h
  | some e =>
    rw [hlast] at h
    have he : e = .linkUp := of_decide_eq_true h
    exact he ▸ List.mem_of_mem_filter (List.mem_of_getLast? hlast)

theorem alternates_append (up : Bool) (xs ys : List Event) :
    alternates up (xs ++ ys) = (alternates up xs && alternates (linkAfter up xs) ys) := by
  induction xs generalizing up with
  | nil => rfl
  | cons e xs ih =>
    rw [linkAfter_cons]
    cases e with
    | channels => exact ih up
    | linkUp | linkDown =>
      simp only [List.cons_append, alternates, ih, Bool.and_assoc]
      rfl

/-- The notifications `es` tell how the link went from `up` to `up'`: they alternate, and the last one says `up'`. -/
def LinkTrace (up : Bool) (es : List Event) (up' : Bool) : Prop :=
  alternates up es = true ∧ linkAfter up es = up'

theorem LinkTrace.nil (up : Bool) : LinkTrace up [] up := ⟨rfl, rfl⟩

theorem LinkTrace.append {up up' up'' : Bool} {xs ys : List Event} (h : LinkTrace up xs up')
    (g : LinkTrace up' ys up'') : LinkTrace up (xs ++ ys) up'' := by
  obtain ⟨halt, rfl⟩ := h
  obtain ⟨galt, rfl⟩ := g
  exact ⟨by rw [alternates_append, halt, galt]; rfl, linkAfter_append ..⟩

/-- An RC frame raises the link, with `ev_link_up` only from Down; any other frame says nothing (R131, R138). -/
theorem LinkTrace.frame (up rc : Bool) :
    LinkTrace up (if rc then (if up then [.channels] else [.linkUp, .channels]) else []) (up || rc) := by
  cases rc <;> cases up <;> exact ⟨rfl, rfl⟩

/-- The timeout lowers the link with `ev_link_down`, from Up only (R136). -/
theorem LinkTrace.timeout (up late : Bool) : LinkTrace up (if up && late then [.linkDown] else []) (up && !late) := by
  cases up <;> cases late <;> exact ⟨rfl, rfl⟩

/-! ## What each operation does to the link (R131, R136) -/

/-- A received byte notifies what it does to the link. -/
theorem State.rxOne_linkTrace {b : Byte} {now : Time} {s t : State} (h : s.rxOne b now = .ok t) :
    ∃ es, t.out.events = s.out.events ++ es ∧ LinkTrace s.linkUp es t.linkUp := by
  rcases State.rxOne_cases h with ⟨-, rfl⟩ | ⟨-, -, rfl⟩ | ⟨-, -, rfl⟩ | ⟨-, rfl⟩ | ⟨-, -, rfl⟩ |
    ⟨-, -, rfl⟩ | ⟨-, -, -, rfl⟩
  case inr.inr.inr.inr.inr.inr =>
    rw [State.frameIn_eq]
    exact ⟨_, rfl, .frame s.linkUp _⟩
  all_goals exact ⟨[], (List.append_nil _).symm, .nil _⟩

/-- Received bytes notify what they do to the link. -/
theorem State.rxMany_linkTrace {bs : List Byte} {now : Time} {s t : State} (h : s.rxMany now bs = .ok t) :
    ∃ es, t.out.events = s.out.events ++ es ∧ LinkTrace s.linkUp es t.linkUp := by
  induction bs generalizing s with
  | nil =>
    cases h
    exact ⟨[], (List.append_nil _).symm, .nil _⟩
  | cons b bs ih =>
    simp only [State.rxMany] at h
    split at h
    · cases h
    · rename_i u hu
      obtain ⟨xs, hxs, hx⟩ := State.rxOne_linkTrace hu
      obtain ⟨ys, hys, hy⟩ := ih h
      exact ⟨xs ++ ys, by rw [hys, hxs, List.append_assoc], hx.append hy⟩

/-- A tick does to the link, and notifies, what its timeout step does; it leaves the timestamp alone (R136, R150). -/
theorem execCtrlTick_link {now : Time} {mixEn : Bool} {axes : List (Option Half)} {s t : State}
    (h : execCtrlTick now mixEn axes s = .next t) :
    t.linkUp = (s.linkUp && !timedOut s.cfg now s.lastValidTs) ∧ t.lastValidTs = s.lastValidTs ∧
      t.out.events = if s.linkUp && timedOut s.cfg now s.lastValidTs then [.linkDown] else [] := by
  obtain ⟨a, o, -, -, rfl, ha, -⟩ := execCtrlTick_cases h
  rw [ha, State.linkTimeout_eq]
  exact ⟨rfl, rfl, rfl⟩

/-- Everything an operation can do to the link when it answers a next state: it receives bytes, it is RESET, it is a
CTRL_TICK with its timeout, or it leaves the link alone and notifies nobody. -/
theorem exec_link_cases {i : Instr} {s t : State} (h : exec i s = .next t) :
    (∃ now bs, s.begin.rxMany now bs = .ok t) ∨ (i = .reset ∧ t = s.resetBlock) ∨
      (∃ now mixEn axes, i = .ctrlTick now mixEn axes ∧ execCtrlTick now mixEn axes s = .next t) ∨
      (t.linkUp = s.linkUp ∧ t.out.events = []) := by
  cases i with
  | rxByte b now => exact .inl ⟨now, [b], conclude_next (execRxByte_eq b now s ▸ h)⟩
  | rxTick _ now | frameRcChannelsPacked _ _ _ now | frameLinkStatistics _ _ _ now
  | frameBatterySensor _ _ _ now | frameOther _ _ _ now => exact .inl ⟨now, _, conclude_next h⟩
  | reset => cases h; exact .inr (.inl ⟨rfl, rfl⟩)
  | ctrlTick now mixEn axes => exact .inr (.inr (.inl ⟨now, mixEn, axes, rfl, h⟩))
  | setChannel k v =>
    cases h
    refine .inr (.inr (.inr ?_))
    rw [State.chWrite_eq]
    exact ⟨rfl, rfl⟩
  | sendChannels | sendBattery =>
    cases h
    refine .inr (.inr (.inr ⟨?_, (State.sendFrame_eq ..).2.1⟩))
    rw [(State.sendFrame_eq ..).1]
    rfl
  | isLinkUp | getLinkStats => cases h; exact .inr (.inr (.inr ⟨rfl, rfl⟩))
  | getChannel k =>
    simp only [exec, execGetChannel] at h
    split at h <;> cases h
    exact .inr (.inr (.inr ⟨rfl, rfl⟩))
  | encode ty payload =>
    simp only [exec, execEncode] at h
    split at h <;> cases h <;> exact .inr (.inr (.inr ⟨rfl, rfl⟩))
  | reserved0 | reservedB | reservedC | reservedD | reservedE => cases h

/-- Every operation but RESET notifies what it does to the link. -/
theorem exec_linkTrace {i : Instr} {s t : State} (h : exec i s = .next t) (hi : i ≠ .reset) :
    LinkTrace s.linkUp t.out.events t.linkUp := by
  rcases exec_link_cases h with ⟨now, bs, hrx⟩ | ⟨rfl, -⟩ | ⟨now, mixEn, axes, -, htick⟩ | ⟨hlink, hevents⟩
  · obtain ⟨es, hes, htrace⟩ := State.rxMany_linkTrace hrx
    rw [hes]
    exact htrace
  · exact absurd rfl hi
  · obtain ⟨hlink, -, hevents⟩ := execCtrlTick_link htick
    rw [hlink, hevents]
    exact .timeout ..
  · rw [hlink, hevents]
    exact .nil _

/-- Every sequence of operations without RESET notifies what it does to the link. -/
theorem runOps_linkTrace (is : List Instr) (s : State) (hr : Instr.reset ∉ is) :
    LinkTrace s.linkUp (runOps is s).2 (runOps is s).1.linkUp := by
  induction is generalizing s with
  | nil => exact .nil _
  | cons i is ih =>
    obtain ⟨hi, hr⟩ := not_or.1 (mt List.mem_cons.2 hr)
    simp only [runOps]
    split
    case h_1 t hx => exact (exec_linkTrace hx (Ne.symm hi)).append (ih t hr)
    case h_2 => exact .nil _
    case h_3 => exact ih s hr

/-- Settles O54: each operation's notifications go on where those before it left the link. -/
theorem linkNotificationsAlternate : Obligations.LinkNotificationsAlternate := by
  intro is s hr
  obtain ⟨halt, hlink⟩ := runOps_linkTrace is s hr
  refine ⟨halt, hlink.symm.trans ?_⟩
  unfold linkAfter
  cases ((runOps is s).2.filter fun e => decide (e ≠ .channels)).getLast? <;> rfl

/-! ## What raises and what lowers the link (R131, R136) -/

theorem issues_of_receiveTime {i : Instr} {now : Time} (h : receiveTime i = some now) :
    Agent.receive.issues i = true := by
  cases i <;> cases h <;> rfl

/-- Settles O56: only a receive operation leaves a Down link Up, and a link that went Up was notified. -/
theorem onlyReceivingRaisesLink : Obligations.OnlyReceivingRaisesLink := by
  intro i s t h hdown hup
  have hi : i ≠ .reset := fun e => by
    subst e
    cases h
    cases hup
  obtain ⟨-, hlast⟩ := exec_linkTrace h hi
  rw [hdown, hup] at hlast
  rcases exec_stamp h hi with ⟨-, hkeep⟩ | htime
  · cases hdown.symm.trans (hkeep hup)
  · exact ⟨issues_of_receiveTime htime, htime, linkUp_mem_of_linkAfter hlast⟩

/-- The failsafe condition as the strict comparison of R136, with the modular difference of the times. -/
theorem timedOut_iff_mod {c : Config} {now ts : Time} :
    timedOut c now ts = true ↔ (c.tFs1 : Int) < ((now : Int) - ts) % 2 ^ c.timeW :=
  timedOut_iff.trans Int.lt_toNat

/-- Settles O57: receiving never lowers the link, and a tick lowers it by its timeout. -/
theorem onlyTimeoutOrResetLowersLink : Obligations.OnlyTimeoutOrResetLowersLink := by
  intro i s t h hup hdown
  rcases exec_link_cases h with ⟨now, bs, hrx⟩ | ⟨rfl, -⟩ | ⟨now, mixEn, axes, rfl, htick⟩ | ⟨hlink, -⟩
  · cases hdown.symm.trans ((State.rxMany_effect hrx).link hup)
  · exact .inl rfl
  · obtain ⟨hlink, -, hevents⟩ := execCtrlTick_link htick
    have hlate : timedOut s.cfg now s.lastValidTs = true := by simpa [hup, hdown] using hlink
    exact .inr ⟨now, mixEn, axes, rfl, timedOut_iff_mod.1 hlate, by rw [hevents, hup, hlate]; rfl⟩
  · cases hdown.symm.trans (hlink.trans hup)

/-- Settles O32: a tick completes, and its timeout step is the only one that touches the link. -/
theorem linkTimeoutIsStrict : Obligations.LinkTimeoutIsStrict := by
  intro s now mixEn axes hshape _
  obtain ⟨u, hu⟩ := hshape.execCtrlTick_total now mixEn axes
  obtain ⟨hlink, hts, hevents⟩ := execCtrlTick_link hu
  refine ⟨u, hu, hts, ?_⟩
  simp only [hlink, hevents, ← timedOut_iff_mod]
  cases s.linkUp <;> cases timedOut s.cfg now s.lastValidTs <;> exact ⟨rfl, rfl⟩

/-! ## The rows of the wire frames, received between frames (R130 to R135, R98) -/

/-- A dispatched frame is in error exactly when its header is none of the three that take priority (R133 to R135). -/
theorem frameErrors_eq {c : Config} {f : Frame} (hlen : 2 ≤ f.len.toNat) :
    frameErrors c f =
      if headerKnown c f.len f.type then []
      else if f.type = c.typeRc ∨ f.type = c.typeLs ∨ f.type = c.typeBt then [.wrongSize] else [.unknownType] := by
  have hsize (ty : Byte) (n : Nat) :
      decide (f.type = ty ∧ f.len.toNat - 2 = n) = headerIs ty n f.len f.type := by
    rw [headerIs, Bool.decide_and]
    congr 2
    exact propext (by omega)
  have hknown : (rcHit c f || lsHit c f || decide (f.type = c.typeBt ∧ f.len.toNat - 2 = c.btPayload)) =
      headerKnown c f.len f.type := by
    simp only [lsHit, rcHit, hsize, headerKnown]
    cases headerIs c.typeRc c.rcPayload f.len f.type <;> rfl
  rw [frameErrors, hknown]

/-- Everything a frame received between frames does outside the parser: with the matching checksum it has the effect
of R138's table and the errors of R133 to R135, with any other it is dropped (R98). -/
theorem State.receive_frame {s : State} {payload : List Byte} (a t ck : Byte) (now : Time)
    (hwf : s.cfg.wf = true) (hbuf : s.rxBuf.wf = true) (hs : s.rxState = .addr)
    (hpay : payload.length ≤ s.cfg.maxPayload) :
    ∃ u, s.begin.rxMany now (frameBytes a (lenByte payload.length) t payload ck) = .ok u ∧ u.rxState = .addr ∧
      if ck = crc8 s.cfg (t :: payload) then
        Delivered t payload now s u ∧ u.out.errors = frameErrors s.cfg ⟨a, lenByte payload.length, t, payload, ck⟩
      else SameOutsideParser s u ∧ u.out = { errors := [.checksumMismatch] } := by
  by_cases hck : ck = crc8 s.cfg (t :: payload)
  · obtain ⟨u, hu, hstate, -, -, hdelivered⟩ := State.receive_frame_match a t now hwf hbuf hs hpay
    rw [← hck] at hu
    refine ⟨u, hu, hstate, ?_⟩
    rw [if_pos hck]
    refine ⟨hdelivered, ?_⟩
    obtain ⟨-, hcount⟩ := lenLegal_iff.1 (lenLegal_lenByte hwf hpay)
    rw [State.rxMany_frameBytes (s := s.begin) a t ck now hwf hs hpay,
      State.rxOne_crc_match (s := s.begin.beforeChecksum a t payload) now rfl hck hcount, State.frameIn_eq] at hu
    cases hu
    rfl
  · obtain ⟨u, hu, hstate, hrest⟩ := State.receive_frame_mismatch a t now hwf hs hpay hck
    exact ⟨u, hu, hstate, by rwa [if_neg hck]⟩

/-- Settles O12: the row's type and size are those of an RC frame. -/
theorem rcFrameRowCompletes : Obligations.RcFrameRowCompletes := by
  intro s a ck payload now hwf hbuf hs hlen
  obtain ⟨htypes, -, -⟩ := Config.wf_types hwf
  obtain ⟨-, hmax, -⟩ := Config.wf_sizes hwf
  have hrc : isRcFrame s.cfg s.cfg.typeRc payload = true := by simp [isRcFrame, hlen]
  have hls : isLsFrame s.cfg s.cfg.typeRc payload = false := by simp [isLsFrame, htypes]
  obtain ⟨u, hu, hstate, heffect⟩ := State.receive_frame a s.cfg.typeRc ck now hwf hbuf hs (hlen.trans_le hmax)
  rw [hlen] at hu
  refine ⟨u, congrArg conclude hu, hstate, ?_⟩
  by_cases hck : ck = crc8 s.cfg (s.cfg.typeRc :: payload)
  · simp only [if_pos hck] at heffect ⊢
    obtain ⟨⟨hboundary, hts, hch, hlink, hstats, hevents⟩, -⟩ := heffect
    rw [hrc] at hch hlink hevents
    rw [hls] at hstats
    exact ⟨hboundary, hstats, hts, hch, hlink.trans (Bool.or_true _), hevents⟩
  · simp only [if_neg hck] at heffect ⊢
    obtain ⟨⟨hboundary, hch, hlink, hts, hstats⟩, hout⟩ := heffect
    exact ⟨hboundary, hstats, hts, hch, hlink, by rw [hout]⟩

/-- Settles O13: the row's type and size are those of a link-statistics frame. -/
theorem linkStatsFrameRowCompletes : Obligations.LinkStatsFrameRowCompletes := by
  intro s a ck payload now hwf hbuf hs hlen
  obtain ⟨htypes, -, -⟩ := Config.wf_types hwf
  obtain ⟨-, -, hmax, -⟩ := Config.wf_sizes hwf
  have hrc : isRcFrame s.cfg s.cfg.typeLs payload = false := by simp [isRcFrame, htypes.symm]
  have hls : isLsFrame s.cfg s.cfg.typeLs payload = true := by simp [isLsFrame, hlen]
  obtain ⟨u, hu, hstate, heffect⟩ := State.receive_frame a s.cfg.typeLs ck now hwf hbuf hs (hlen.trans_le hmax)
  rw [hlen] at hu
  refine ⟨u, congrArg conclude hu, hstate, ?_⟩
  by_cases hck : ck = crc8 s.cfg (s.cfg.typeLs :: payload)
  · simp only [if_pos hck] at heffect ⊢
    obtain ⟨⟨hboundary, hts, hch, hlink, hstats, hevents⟩, -⟩ := heffect
    rw [hrc] at hch hlink hevents
    rw [hls] at hstats
    exact ⟨hboundary, hch, hlink.trans (Bool.or_false _), hevents, hts, hstats⟩
  · simp only [if_neg hck] at heffect ⊢
    obtain ⟨⟨hboundary, hch, hlink, hts, hstats⟩, hout⟩ := heffect
    exact ⟨hboundary, hch, hlink, by rw [hout], hts, hstats⟩

/-- A frame received between frames that is neither an RC frame nor a link-statistics frame writes the timestamp at
most, and raises one error at most (R133 to R135, R98). -/
theorem State.receive_frame_timestamp_only {s : State} {payload : List Byte} {t : Byte} (a ck : Byte) (now : Time)
    (hwf : s.cfg.wf = true) (hbuf : s.rxBuf.wf = true) (hs : s.rxState = .addr)
    (hpay : payload.length ≤ s.cfg.maxPayload) (hrc : isRcFrame s.cfg t payload = false)
    (hls : isLsFrame s.cfg t payload = false) :
    ∃ u, s.begin.rxMany now (frameBytes a (lenByte payload.length) t payload ck) = .ok u ∧ u.rxState = .addr ∧
      SameBoundary s u ∧ u.ch = s.ch ∧ u.linkUp = s.linkUp ∧ u.ls = s.ls ∧ u.out.events = [] ∧
      if ck = crc8 s.cfg (t :: payload) then
        u.lastValidTs = now ∧ u.out.errors = frameErrors s.cfg ⟨a, lenByte payload.length, t, payload, ck⟩
      else u.lastValidTs = s.lastValidTs ∧ u.out.errors = [.checksumMismatch] := by
  obtain ⟨u, hu, hstate, heffect⟩ := State.receive_frame a t ck now hwf hbuf hs hpay
  refine ⟨u, hu, hstate, ?_⟩
  by_cases hck : ck = crc8 s.cfg (t :: payload)
  · simp only [if_pos hck] at heffect ⊢
    obtain ⟨⟨hboundary, hts, hch, hlink, hstats, hevents⟩, herrors⟩ := heffect
    rw [hrc] at hch hlink hevents
    rw [hls] at hstats
    exact ⟨hboundary, hch, hlink.trans (Bool.or_false _), hstats, hevents, hts, herrors⟩
  · simp only [if_neg hck] at heffect ⊢
    obtain ⟨⟨hboundary, hch, hlink, hts, hstats⟩, hout⟩ := heffect
    exact ⟨hboundary, hch, hlink, hstats, by rw [hout], hts, by rw [hout]⟩

/-- Settles O14: the row's header is known, and it is neither of the two that write more than the timestamp. -/
theorem batteryFrameRowCompletes : Obligations.BatteryFrameRowCompletes := by
  intro s a ck payload now hwf hbuf hs hlen
  obtain ⟨-, hrc, hls⟩ := Config.wf_types hwf
  obtain ⟨-, -, -, hmax, h253⟩ := Config.wf_sizes hwf
  have hpay : payload.length ≤ s.cfg.maxPayload := hlen.trans_le hmax
  obtain ⟨u, hu, hstate, hboundary, hch, hlink, hstats, hevents, hrest⟩ :=
    State.receive_frame_timestamp_only (t := s.cfg.typeBt) a ck now hwf hbuf hs hpay
      (by simp [isRcFrame, hrc.symm]) (by simp [isLsFrame, hls.symm])
  have hknown : headerKnown s.cfg (lenByte payload.length) s.cfg.typeBt = true := by
    rw [headerKnown, hlen, headerIs_lenByte s.cfg.typeBt (hmax.trans h253), Bool.or_true]
  rw [hlen] at hu
  refine ⟨u, congrArg conclude hu, hstate, hboundary, hch, hlink, hstats, hevents, ?_⟩
  by_cases hck : ck = crc8 s.cfg (s.cfg.typeBt :: payload)
  · simp only [if_pos hck] at hrest ⊢
    obtain ⟨hts, herrors⟩ := hrest
    exact ⟨hts, by rw [herrors, frameErrors_eq (lenLegal_iff.1 (lenLegal_lenByte hwf hpay)).1, if_pos hknown]⟩
  · simp only [if_neg hck] at hrest ⊢
    exact hrest.1

/-- A well-formed FRAME_OTHER has an illegal LEN byte and nothing behind it, or it has the bytes its legal LEN byte
announces, under a header that is none of the three that take priority (R67). -/
theorem frameOther_wf_cases {c : Config} {a len : Byte} {body : List Byte} {now : Time}
    (h : (Instr.frameOther a len body now).wf c = true) :
    (body = [] ∧ lenLegal c len = false) ∨
      ∃ t payload ck, body = t :: (payload ++ [ck]) ∧ len = lenByte payload.length ∧
        payload.length ≤ c.maxPayload ∧ headerKnown c len t = false := by
  cases body with
  | nil =>
    simp only [Instr.wf, Bool.and_eq_true, Bool.not_eq_true'] at h
    exact .inl ⟨rfl, h.2⟩
  | cons t rest =>
    simp only [Instr.wf, Bool.and_eq_true, Bool.not_eq_true', decide_eq_true_eq, List.length_cons] at h
    obtain ⟨-, ⟨hlegal, hlen⟩, hother⟩ := h
    obtain ⟨h2, hmax⟩ := lenLegal_iff.1 hlegal
    obtain ⟨payload, ck, rfl⟩ : ∃ payload ck, rest = payload ++ [ck] :=
      (List.eq_nil_or_concat' rest).resolve_left (List.ne_nil_of_length_pos (by omega))
    rw [List.length_append, List.length_singleton] at hlen
    exact .inr ⟨t, payload, ck, rfl, (lenByte_of_toNat hlen.symm).symm, by omega, hother⟩

/-- An address and an illegal LEN byte, received between frames (R94, R95). -/
theorem State.rxMany_illegal_len {s : State} (a : Byte) {len : Byte} (now : Time) (hs : s.rxState = .addr)
    (hlen : lenLegal s.cfg len = false) :
    s.rxMany now [a, len] =
      .ok { s with rxAddr := a, rxState := .addr, out := { s.out with errors := s.out.errors ++ [lenError len] } } := by
  simp only [State.rxMany, State.rxOne_addr a now hs]
  rw [State.rxOne_len_bad (s := { s with rxAddr := a, rxState := .len }) now rfl hlen]

/-- A header that is not known is neither that of an RC frame nor that of a link-statistics frame. -/
theorem isFrame_eq_false_of_headerKnown {c : Config} {t : Byte} {payload : List Byte} (hpay : payload.length ≤ 253)
    (h : headerKnown c (lenByte payload.length) t = false) :
    isRcFrame c t payload = false ∧ isLsFrame c t payload = false := by
  have hsize (n : Nat) : (payload.length + 2 = n + 2) = (payload.length = n) := propext Nat.add_right_cancel_iff
  simp only [headerKnown, headerIs, lenByte_toNat hpay, hsize, Bool.or_eq_false_iff] at h
  exact h.1

/-- Settles O15: an illegal LEN byte ends its frame, and a frame under an unknown header writes the timestamp at
most. -/
theorem otherFrameRowCompletes : Obligations.OtherFrameRowCompletes := by
  intro s a len body now hwf hbuf hs hi
  obtain ⟨-, -, -, -, h253⟩ := Config.wf_sizes hwf
  rcases frameOther_wf_cases hi with ⟨rfl, hillegal⟩ | ⟨t, payload, ck, rfl, rfl, hpay, hother⟩
  · exact ⟨_, congrArg conclude (State.rxMany_illegal_len (s := s.begin) a now hs hillegal), rfl, ⟨rfl, rfl, rfl⟩, rfl,
      rfl, rfl, rfl, fun _ _ _ => ⟨fun _ => ⟨rfl, congrArg ([·]) (lenError_class len)⟩, nofun⟩⟩
  · obtain ⟨hrc, hls⟩ := isFrame_eq_false_of_headerKnown (hpay.trans h253) hother
    obtain ⟨u, hu, hstate, hboundary, hch, hlink, hstats, hevents, hrest⟩ :=
      State.receive_frame_timestamp_only a ck now hwf hbuf hs hpay hrc hls
    refine ⟨u, congrArg conclude hu, hstate, hboundary, hch, hlink, hstats, hevents, fun t' ck' payload' =>
      ⟨nofun, fun hbody => ?_⟩⟩
    obtain ⟨rfl, htail⟩ := List.cons.inj hbody
    obtain ⟨rfl, hck⟩ := List.append_inj' htail rfl
    cases hck
    by_cases hck : ck = crc8 s.cfg (t :: payload)
    · simp only [if_pos hck] at hrest ⊢
      obtain ⟨hts, herrors⟩ := hrest
      refine ⟨hts, ?_⟩
      rw [herrors, frameErrors_eq (lenLegal_iff.1 (lenLegal_lenByte hwf hpay)).1, if_neg (Bool.eq_false_iff.1 hother)]
      split <;> rfl
    · simp only [if_neg hck] at hrest ⊢
      obtain ⟨hts, herrors⟩ := hrest
      exact ⟨hts, by rw [herrors]; rfl⟩

/-! ## The read operations (R140, R141) -/

/-- Settles O25: R140's one case, with no timeout step. -/
theorem isLinkUpReturnsFlag : Obligations.IsLinkUpReturnsFlag := fun _ => rfl

/-- Settles O26: R141's one case. -/
theorem getLinkStatsReturnsRecord : Obligations.GetLinkStatsReturnsRecord := fun _ => rfl

end Sys2Proof.Machine

/-!
PROOF. The statements of 42_channel_mixer.md: the axis mapping (R153, R154), the deadband (R158), the duty scale (R157,
R159), the store a tick leaves (R150 to R155) and the Mix Output it publishes (R156 to R161, R165).
-/

namespace Sys2Proof.Machine

/-! ## Axis to channel (R153, R154) -/

/-- A nonnegative dividend truncated toward zero, by its defining inequalities (R8). -/
theorem divT_of_nonneg {x d : Int} (hx : 0 ≤ x) (hd : 0 < d) :
    0 ≤ divT x d ∧ divT x d * d ≤ x ∧ x < (divT x d + 1) * d := by
  rw [divT, Int.tdiv_eq_ediv_of_nonneg hx]
  exact ⟨Int.ediv_nonneg hx hd.le, Int.ediv_mul_le x hd.ne', Int.lt_ediv_add_one_mul_self x hd⟩

/-- Truncation toward zero is odd in the dividend (R8). -/
theorem divT_neg (x d : Int) : divT (-x) d = -divT x d := Int.neg_tdiv x d

/-- A dividend below zero truncated toward zero: the mirror image of `divT_of_nonneg`. -/
theorem divT_of_neg {x d : Int} (hx : x < 0) (hd : 0 < d) :
    divT x d ≤ 0 ∧ x ≤ divT x d * d ∧ (divT x d - 1) * d < x := by
  obtain ⟨hnonneg, hle, hlt⟩ := divT_of_nonneg (neg_nonneg.2 hx.le) hd
  rw [divT_neg] at hnonneg hle hlt
  exact ⟨by linarith, by linarith, by linarith⟩

/-- R154: the one clamp of the axis mapping. -/
theorem axisToCh_eq {c : Config} (h : c.wfRange = true) (x : Int) :
    axisToCh c x = max c.chMin (min (axisRaw c x) c.chMax) := by
  obtain ⟨-, hlo, hhi, -⟩ := Config.wfRange_parts h
  exact sat_eq _ (hlo.trans hhi)

/-- A mapped sample is stored as it is (R154, R11). -/
theorem toCh_axisToCh {c : Config} (h : c.wfRange = true) (x : Int) : c.toCh (axisToCh c x) = axisToCh c x := by
  obtain ⟨-, hlo, hhi, -⟩ := Config.wfRange_parts h
  obtain ⟨hmin, hmax⟩ := sat_bounds (axisRaw c x) (hlo.trans hhi)
  exact Config.toCh_of_range h hmin hmax

/-- Settles O37: on each half of the axis the quotient is a truncated one, exact at that half's end. -/
theorem axisMappingTruncatesOnce : Obligations.AxisMappingTruncatesOnce := by
  intro c x hwf hmax hmin
  obtain ⟨hhalf, -⟩ := Config.wfRange_parts hwf
  rw [axisToCh_eq hwf, axisRaw]
  by_cases hx : 0 ≤ x
  · refine ⟨divT (x * c.chHalf) c.axisMax, by rw [if_pos hx],
      fun _ => divT_of_nonneg (mul_nonneg hx hhalf.le) hmax, fun hneg => absurd hx hneg.not_ge, ?_,
      fun hend => absurd hx (hend ▸ hmin).not_ge⟩
    rintro rfl
    exact Int.mul_tdiv_cancel_left _ hmax.ne'
  · have hneg : x < 0 := not_le.1 hx
    refine ⟨divT (x * c.chHalf) (-c.axisMin), by rw [if_neg hx], fun hnonneg => absurd hnonneg hx,
      fun _ => divT_of_neg (mul_neg_of_neg_of_pos hneg hhalf) (neg_pos.2 hmin),
      fun hend => absurd (hend ▸ hmax.le) hx, ?_⟩
    rintro rfl
    rw [← neg_mul_neg, divT, Int.mul_tdiv_cancel_left _ (neg_pos.2 hmin).ne']

/-! ## The differential drives (R156 to R159) -/

/-- R158: the deadband as one comparison of the magnitude. -/
theorem db_eq (c : Config) (v : Int) : db c v = if |v| < c.dbThresh then 0 else v := by
  rw [db, absI_eq]

/-- Settles O38: the two sides of `db_eq`. -/
theorem deadbandIsExactAtThreshold : Obligations.DeadbandIsExactAtThreshold := fun c v =>
  ⟨fun h => by rw [db_eq, if_pos h], fun h => by rw [db_eq, if_neg h.not_gt]⟩

/-- The deadband never grows a magnitude. -/
theorem abs_db_le {c : Config} {v b : Int} (h : |v| ≤ b) : |db c v| ≤ b := by
  rw [db_eq]
  split
  · exact abs_zero.trans_le ((abs_nonneg v).trans h)
  · exact h

theorem sym_eq {c : Config} (h : 0 < c.chHalf) (v : Int) :
    sym c v = max (-c.chHalf) (min (v - c.chCenter) c.chHalf) :=
  sat_eq _ (by omega)

theorem abs_sym_le {c : Config} (h : 0 < c.chHalf) (v : Int) : |sym c v| ≤ c.chHalf :=
  abs_le.2 (sat_bounds _ (by omega))

/-- Half of what is within twice a bound is within the bound (R157). -/
theorem abs_divT_two_le {x b : Int} (h : |x| ≤ 2 * b) : |divT x 2| ≤ b := by
  rw [Int.abs_eq_natAbs] at h ⊢
  rw [divT, Int.natAbs_tdiv]
  change ((x.natAbs / 2 : Nat) : Int) ≤ b
  omega

theorem abs_leftRaw_sym_le {c : Config} (h : 0 < c.chHalf) (vA vB : Int) :
    |leftRaw (sym c vA) (sym c vB)| ≤ c.chHalf := by
  have hA := abs_sym_le h vA
  have hB := abs_sym_le h vB
  exact abs_divT_two_le ((abs_sub _ _).trans (by omega))

theorem abs_rightRaw_sym_le {c : Config} (h : 0 < c.chHalf) (vA vB : Int) :
    |rightRaw (sym c vA) (sym c vB)| ≤ c.chHalf := by
  have hA := abs_sym_le h vA
  have hB := abs_sym_le h vB
  rw [rightRaw, abs_neg]
  exact abs_divT_two_le ((abs_add_le _ _).trans (by omega))

/-- No duty exceeds `DUTY_MAX`, whatever the mixed value (R159). -/
theorem driveOf_duty_le (c : Config) (m : Int) : (driveOf c m).duty ≤ c.dutyMax := by
  have := (sat_bounds (divT (absI m * c.dutyMax) c.chHalf) (Int.natCast_nonneg c.dutyMax)).2
  exact Int.toNat_le.2 this

/-- Inside the symmetric domain the duty is the scaled magnitude itself: R159's saturation changes nothing. -/
theorem driveOf_eq {c : Config} {m : Int} (h : 0 < c.chHalf) (hm : |m| ≤ c.chHalf) :
    driveOf c m = { dir := decide (m < 0), duty := m.natAbs * c.dutyMax / c.chHalf.toNat } := by
  obtain ⟨half, hhalf⟩ := Int.eq_ofNat_of_zero_le h.le
  have hquot : divT (absI m * c.dutyMax) c.chHalf = ((m.natAbs * c.dutyMax / half : Nat) : Int) := by
    rw [absI_eq, Int.abs_eq_natAbs, hhalf]
    rfl
  have hscale : m.natAbs * c.dutyMax / half ≤ c.dutyMax := by
    have hmag : m.natAbs ≤ half := by
      rw [Int.abs_eq_natAbs, hhalf] at hm
      exact Int.ofNat_le.1 hm
    exact Nat.div_le_of_le_mul (Nat.mul_le_mul_right _ hmag)
  have hsat : sat ((m.natAbs * c.dutyMax / half : Nat) : Int) 0 c.dutyMax
      = ((m.natAbs * c.dutyMax / half : Nat) : Int) := by
    rw [sat_eq _ (Int.natCast_nonneg _), min_eq_left (Int.ofNat_le.2 hscale), max_eq_right (Int.natCast_nonneg _)]
  rw [driveOf, hquot, hsat, hhalf]
  rfl

/-! ## The store after a tick (R150 to R155, R163) -/

/-- The sample of the first pair counts only where no later one is available (R152). -/
theorem lastSample_cons (j : Nat) (p : Nat × Option Half) (rest : List (Nat × Option Half)) :
    lastSample j (p :: rest) = (lastSample j rest).or (if p.1 = j then p.2 else none) := by
  unfold lastSample
  rw [List.filterMap_cons]
  cases (if p.1 = j then p.2 else none) with
  | none => exact Option.or_none.symm
  | some v =>
    rw [List.getLast?_cons]
    cases (List.filterMap (fun p => if p.1 = j then p.2 else none) rest).getLast? <;> rfl

/-- One axis: its channel takes the mapped sample, where there is one, and no other channel changes (R152 to R155). -/
theorem State.StoreShaped.writeAxis_ok {s t : State} (h : s.StoreShaped) {k : Nat} {sample : Option Half}
    (ht : s.writeAxis k sample = .ok t) :
    t.StoreShaped ∧ t.cfg = s.cfg ∧
      ∀ j, t.chRead j = ((if k = j then sample else none).map fun v => axisToCh s.cfg v.toInt).or (s.chRead j) := by
  obtain ⟨hlen, hrange, hidx⟩ := h
  cases sample with
  | none =>
    cases ht
    exact ⟨⟨hlen, hrange, hidx⟩, rfl, fun j => by rw [ite_self]; rfl⟩
  | some v =>
    simp only [State.writeAxis] at ht
    split at ht
    case isFalse => cases ht
    case isTrue hk =>
      cases ht
      refine ⟨?_, State.chWrite_cfg .., fun j => ?_⟩
      · rw [State.StoreShaped, State.chWrite_length, State.chWrite_cfg]
        exact ⟨hlen, hrange, hidx⟩
      · by_cases hj : k = j
        · subst hj
          rw [State.chRead_chWrite_same _ hk hlen, toCh_axisToCh hrange, if_pos rfl]
          rfl
        · rw [State.chRead_chWrite_other _ (Ne.symm hj), if_neg hj]
          rfl

/-- The loop over the axes: each channel takes its last available sample (R150, R152). -/
theorem State.StoreShaped.writeAxes_chRead {s t : State} (h : s.StoreShaped) {pairs : List (Nat × Option Half)}
    (ht : s.writeAxes pairs = .ok t) (j : Nat) :
    t.chRead j = ((lastSample j pairs).map fun v => axisToCh s.cfg v.toInt).or (s.chRead j) := by
  induction pairs generalizing s with
  | nil => cases ht; rfl
  | cons p rest ih =>
    obtain ⟨k, sample⟩ := p
    rw [State.writeAxes] at ht
    split at ht
    case h_1 => cases ht
    case h_2 r hr =>
      obtain ⟨hshape, hcfg, hread⟩ := h.writeAxis_ok hr
      rw [ih hshape ht, hread j, hcfg, lastSample_cons, Option.map_or, Option.or_assoc]

/-- The axis step: the mode selector decides between the loop and no write at all (R163). -/
theorem State.StoreShaped.axisStep_chRead {s t : State} (h : s.StoreShaped) {mixEn : Bool}
    {axes : List (Option Half)} (ht : s.axisStep mixEn axes = .ok t) (j : Nat) :
    t.chRead j = if mixEn then
      ((lastSample j (s.cfg.axisCh.zip axes)).map fun v => axisToCh s.cfg v.toInt).or (s.chRead j)
      else s.chRead j := by
  cases mixEn with
  | false => cases ht; rfl
  | true => exact h.writeAxes_chRead ht j

/-! ## What a tick publishes (R150, R161, R162) -/

/-- A tick leaves the parameters and the store's length, and publishes the mix of the store it leaves, overridden by
the link it leaves. -/
theorem execCtrlTick_published {now : Time} {mixEn : Bool} {axes : List (Option Half)} {s u : State}
    (h : execCtrlTick now mixEn axes s = .next u) :
    u.cfg = s.cfg ∧ u.ch.length = s.ch.length ∧ ∃ o, u.mixOut = .ok o ∧ u.out.mix = some (u.override o) := by
  obtain ⟨a, o, -, ho, rfl, ha, hlen⟩ := execCtrlTick_cases h
  have hcfg : a.cfg = s.cfg := by
    rw [ha, State.linkTimeout_eq]
    rfl
  have hmix : (a.publish (a.override o)).mixOut = a.mixOut := State.mixOut_congr rfl rfl
  exact ⟨hcfg, hlen, o, hmix.trans ho, rfl⟩

/-- A tick completes and keeps the store's shape. -/
theorem State.StoreShaped.tick {s : State} (h : s.StoreShaped) (now : Time) (mixEn : Bool)
    (axes : List (Option Half)) :
    ∃ u, execCtrlTick now mixEn axes s = .next u ∧ u.StoreShaped ∧ u.cfg = s.cfg ∧
      ∃ o, u.mixOut = .ok o ∧ u.out.mix = some (u.override o) := by
  obtain ⟨u, hu⟩ := h.execCtrlTick_total now mixEn axes
  obtain ⟨hcfg, hlen, hpublished⟩ := execCtrlTick_published hu
  have hshape : u.StoreShaped := by
    rw [State.StoreShaped, hlen, hcfg]
    exact h
  exact ⟨u, hu, hshape, hcfg, hpublished⟩

theorem State.override_congr {s t : State} (hc : s.cfg = t.cfg) (hup : s.linkUp = t.linkUp) (o : MixOutput) :
    s.override o = t.override o := by
  rw [State.override, State.override, hc, hup]

theorem State.mixOut_diff {s : State} (hkind : s.cfg.mixKind = .diff) {vA vB : Int}
    (hA : s.chRead s.cfg.mixA = some vA) (hB : s.chRead s.cfg.mixB = some vB) :
    s.mixOut = .ok (diffOut s.cfg vA vB) := by
  simp only [State.mixOut, hkind, hA, hB]

theorem State.mixOut_servo {s : State} (hkind : s.cfg.mixKind = .servo) {ps : List Int}
    (hps : s.servoPulses s.cfg.servoCh = .ok ps) : s.mixOut = .ok (.servo ps) := by
  simp only [State.mixOut, hkind, hps]

theorem safeOut_diff {c : Config} (h : c.mixKind = .diff) :
    safeOut c = .diff { dir := false, duty := 0 } { dir := false, duty := 0 } := by
  simp only [safeOut, h]

theorem safeOut_servo {c : Config} (h : c.mixKind = .servo) :
    safeOut c = .servo (List.replicate c.nServo c.safePulse) := by
  simp only [safeOut, h]

/-- While the link is Up the mix is published as it is, while Down the safe value (R161). -/
theorem State.override_up {s : State} (h : s.linkUp = true) (o : MixOutput) : s.override o = o := if_pos h

theorem State.override_down {s : State} (h : s.linkUp = false) (o : MixOutput) : s.override o = safeOut s.cfg :=
  if_neg (by rw [h]; exact Bool.false_ne_true)

/-! ## The statements about a tick -/

/-- The frame of a tick: the parser, the boundary and the statistics are unchanged, and the outputs are the timeout's
notification and one Mix Output (R136, R150, R162). -/
theorem execCtrlTick_frame {now : Time} {mixEn : Bool} {axes : List (Option Half)} {s u : State}
    (h : execCtrlTick now mixEn axes s = .next u) :
    SameParser s u ∧ SameBoundary s u ∧ u.ls = s.ls ∧
      ∃ o, u.out = {
        events := if s.linkUp && timedOut s.cfg now s.lastValidTs then [.linkDown] else [], mix := some o } := by
  obtain ⟨a, o, -, -, rfl, ha, -⟩ := execCtrlTick_cases h
  rw [ha, State.linkTimeout_eq]
  exact ⟨⟨rfl, rfl, rfl, rfl, rfl, rfl, fun _ => rfl⟩, ⟨rfl, rfl, rfl⟩, rfl, _, rfl⟩

/-- The store a tick leaves: with the mode selector active each channel takes its last available sample. -/
theorem State.StoreShaped.execCtrlTick_chRead {now : Time} {mixEn : Bool} {axes : List (Option Half)} {s u : State}
    (hs : s.StoreShaped) (h : execCtrlTick now mixEn axes s = .next u) (j : Nat) :
    u.chRead j = if mixEn then
      ((lastSample j (s.cfg.axisCh.zip axes)).map fun v => axisToCh s.cfg v.toInt).or (s.chRead j)
      else s.chRead j := by
  obtain ⟨a, o, haxis, -, rfl, -, -⟩ := execCtrlTick_cases h
  have hread := (hs.begin_linkTimeout now).axisStep_chRead haxis j
  rw [State.linkTimeout_eq] at hread
  exact hread

/-- Settles O31: a tick completes, and its steps are the timeout, the axis writes and one publication. -/
theorem controlTickCompletes : Obligations.ControlTickCompletes := by
  intro s now mixEn axes hshape _
  obtain ⟨u, hu⟩ := hshape.execCtrlTick_total now mixEn axes
  obtain ⟨hparser, hboundary, hls, o, hout⟩ := execCtrlTick_frame hu
  obtain ⟨hlink, hts, -⟩ := execCtrlTick_link hu
  obtain ⟨-, hlen, -⟩ := execCtrlTick_published hu
  have hlate : timedOut s.cfg now s.lastValidTs
      = !decide (((now : Int) - s.lastValidTs) % 2 ^ s.cfg.timeW ≤ s.cfg.tFs1) := by
    rw [Bool.eq_iff_iff, timedOut_iff_mod, Bool.not_eq_true', decide_eq_false_iff_not, not_le]
  refine ⟨u, o, hu, hparser, hboundary, hls, hts, by rw [hlink, hlate, Bool.not_not], ?_, hlen, fun j => ?_⟩
  · rw [hout, hlink]
    cases s.linkUp <;> cases timedOut s.cfg now s.lastValidTs <;> rfl
  · rw [hshape.execCtrlTick_chRead hu j]
    cases mixEn with
    | false => rfl
    | true => cases lastSample j (s.cfg.axisCh.zip axes) <;> rfl

/-- Settles O33: both mixes lie in the symmetric domain, where the duty is the scaled magnitude. -/
theorem tickPublishesDrives : Obligations.TickPublishesDrives := by
  intro s now mixEn axes hshape _ hkind
  obtain ⟨u, hu, ⟨hlen, hrange, hidx⟩, hcfg, o, ho, hmix⟩ := hshape.tick now mixEn axes
  obtain ⟨⟨hidxA, hidxB⟩, -⟩ := Config.wfIndices_parts hidx
  obtain ⟨hhalf, -⟩ := Config.wfRange_parts hrange
  obtain ⟨vA, hA⟩ := State.chRead_in hidxA hlen
  obtain ⟨vB, hB⟩ := State.chRead_in hidxB hlen
  rw [← hcfg] at hkind ⊢
  refine ⟨u, vA, vB, hu, hA, hB, ?_⟩
  rw [State.mixOut_diff hkind hA hB] at ho
  cases ho
  rw [hmix, ← sym_eq hhalf, ← sym_eq hhalf]
  have hleft := abs_db_le (c := u.cfg) (abs_leftRaw_sym_le hhalf vA vB)
  have hright := abs_db_le (c := u.cfg) (abs_rightRaw_sym_le hhalf vA vB)
  cases hup : u.linkUp with
  | false => rw [State.override_down hup, safeOut_diff hkind]; rfl
  | true =>
    rw [State.override_up hup, diffOut, driveOf_eq hhalf hleft, driveOf_eq hhalf hright, db_eq, db_eq, rightRaw,
      abs_neg]
    rfl

/-- Settles O34: each servo channel exists, and its pulse is saturated between bounds in order. -/
theorem tickPublishesPulses : Obligations.TickPublishesPulses := by
  intro s now mixEn axes hshape _ hkind
  obtain ⟨u, hu, ⟨hlen, hrange, hidx⟩, hcfg, o, ho, hmix⟩ := hshape.tick now mixEn axes
  obtain ⟨-, -, hservo⟩ := Config.wfIndices_parts hidx
  obtain ⟨-, hlo, hhi, -⟩ := Config.wfRange_parts hrange
  obtain ⟨vs, hvs, hps⟩ := State.servoPulses_of_index hlen hservo
  rw [← hcfg] at hkind ⊢
  refine ⟨u, vs, hu, hvs, ?_⟩
  rw [State.mixOut_servo hkind hps] at ho
  cases ho
  rw [hmix]
  cases hup : u.linkUp with
  | false => rw [State.override_down hup, safeOut_servo hkind, List.map_const']; rfl
  | true =>
    have hsat : (fun v => servoPulse u.cfg v) = fun v => max u.cfg.chMin (min v u.cfg.chMax) :=
      funext fun v => sat_eq v (hlo.trans hhi)
    rw [State.override_up hup, hsat]
    rfl

/-- Settles O35: either reason leaves the link Down after the timeout step, and the override reads nothing else. -/
theorem safeOutputWhileDown : Obligations.SafeOutputWhileDown := by
  intro s now mixEn axes hshape hdown
  obtain ⟨u, hu, -, hcfg, o, -, hmix⟩ := hshape.tick now mixEn axes
  have hlink : u.linkUp = false := by
    rw [(execCtrlTick_link hu).1]
    rcases hdown with hdown | hlate
    · rw [hdown, Bool.false_and]
    · rw [timedOut_iff_mod.2 hlate, Bool.not_true, Bool.and_false]
  refine ⟨u, hu, hlink, ?_⟩
  rw [hmix, State.override_down hlink, hcfg]
  cases hkind : s.cfg.mixKind with
  | diff => exact congrArg some (safeOut_diff hkind)
  | servo => exact congrArg some (safeOut_servo hkind)

/-- Settles O36: the published output is the mix of the final store under the final link. -/
theorem mixDependsOnStoreAndLinkOnly : Obligations.MixDependsOnStoreAndLinkOnly := by
  intro s₁ s₂ u₁ u₂ now₁ now₂ en₁ en₂ axes₁ axes₂ h₁ h₂ hcfg hup hch
  obtain ⟨hcfg₁, -, o₁, ho₁, hmix₁⟩ := execCtrlTick_published h₁
  obtain ⟨hcfg₂, -, o₂, ho₂, hmix₂⟩ := execCtrlTick_published h₂
  have hcfg : u₁.cfg = u₂.cfg := by rw [hcfg₁, hcfg₂, hcfg]
  rw [State.mixOut_congr hcfg hch] at ho₁
  cases ho₁.symm.trans ho₂
  rw [hmix₁, hmix₂, State.override_congr hcfg hup]

/-- The duties of a mix (R159). -/
theorem State.mixOut_duty_le {s : State} {l r : Drive} (h : s.mixOut = .ok (.diff l r)) :
    l.duty ≤ s.cfg.dutyMax ∧ r.duty ≤ s.cfg.dutyMax := by
  unfold State.mixOut at h
  split at h <;> split at h <;> cases h
  exact ⟨driveOf_duty_le .., driveOf_duty_le ..⟩

/-- The duties of the safe value (R161). -/
theorem safeOut_duty_le {c : Config} {l r : Drive} (h : safeOut c = .diff l r) :
    l.duty ≤ c.dutyMax ∧ r.duty ≤ c.dutyMax := by
  unfold safeOut at h
  split at h <;> cases h
  exact ⟨Nat.zero_le _, Nat.zero_le _⟩

/-- Settles O39: both mixes halve values of the symmetric domain, and what a tick publishes is a mix or the safe
value. -/
theorem dutyWithinScale : Obligations.DutyWithinScale := by
  refine ⟨fun c vA vB h => ⟨abs_leftRaw_sym_le h vA vB, abs_rightRaw_sym_le h vA vB⟩, ?_⟩
  intro s u now mixEn axes l r h hpub
  obtain ⟨hcfg, -, o, ho, hmix⟩ := execCtrlTick_published h
  have hover : u.override o = .diff l r := Option.some.inj (hmix.symm.trans hpub)
  rw [← hcfg]
  cases hup : u.linkUp with
  | true =>
    rw [State.override_up hup] at hover
    exact State.mixOut_duty_le (hover ▸ ho)
  | false =>
    rw [State.override_down hup] at hover
    exact safeOut_duty_le hover

end Sys2Proof.Machine

/-!
PROOF. The statements of 60_exceptions.md: what the operations of each agent leave alone (R194), and the idle block
(R195).
-/

namespace Sys2Proof.Machine

/-! ## The receive activity (R194) -/

/-- An operation of the receive activity is the receipt of bytes (R93, R100). -/
theorem exec_receive {i : Instr} {s t : State} (hi : Agent.receive.issues i = true) (h : exec i s = .next t) :
    ∃ now bs, s.begin.rxMany now bs = .ok t := by
  cases i with
  | rxByte b now => exact ⟨now, [b], conclude_next (execRxByte_eq b now s ▸ h)⟩
  | rxTick _ now | frameRcChannelsPacked _ _ _ now | frameLinkStatistics _ _ _ now
  | frameBatterySensor _ _ _ now | frameOther _ _ _ now => exact ⟨now, _, conclude_next h⟩
  | _ => cases hi

/-- A dispatched frame emits `ev_link_up` and `ev_channels` only (R131, R138). -/
theorem State.linkDown_mem_of_frameIn {f : Frame} {now : Time} {s : State}
    (h : Event.linkDown ∈ (s.frameIn f now).out.events) : Event.linkDown ∈ s.out.events := by
  rw [State.frameIn_eq] at h
  refine (List.mem_append.1 h).resolve_right ?_
  cases rcHit s.cfg f <;> cases s.linkUp <;> decide

/-- Only the byte that ends a frame notifies anybody, and then as the frame does. -/
theorem State.linkDown_mem_of_rxOne {b : Byte} {now : Time} {s t : State} (h : s.rxOne b now = .ok t)
    (hmem : Event.linkDown ∈ t.out.events) : Event.linkDown ∈ s.out.events := by
  rcases State.rxOne_cases h with ⟨-, rfl⟩ | ⟨-, -, rfl⟩ | ⟨-, -, rfl⟩ | ⟨-, rfl⟩ | ⟨-, -, rfl⟩ |
    ⟨-, -, rfl⟩ | ⟨-, -, -, rfl⟩
  case inr.inr.inr.inr.inr.inr => exact State.linkDown_mem_of_frameIn (s := { s with rxState := .addr }) hmem
  all_goals exact hmem

/-- Received bytes never emit `ev_link_down` (R136). -/
theorem State.linkDown_mem_of_rxMany {bs : List Byte} {now : Time} {s t : State} (h : s.rxMany now bs = .ok t)
    (hmem : Event.linkDown ∈ t.out.events) : Event.linkDown ∈ s.out.events := by
  induction bs generalizing s with
  | nil =>
    cases h
    exact hmem
  | cons b bs ih =>
    simp only [State.rxMany] at h
    split at h
    · cases h
    · rename_i u hu
      exact State.linkDown_mem_of_rxOne hu (ih h)

/-- Settles O59: an operation of the receive activity is the receipt of bytes, after the outputs are emptied. -/
theorem receiveActivityFrame : Obligations.ReceiveActivityFrame := by
  intro i s t hi h
  obtain ⟨now, bs, hrx⟩ := exec_receive hi h
  obtain ⟨hcfg, hpending, houtbound, htx, hmix, -⟩ := State.rxMany_boundary hrx
  exact ⟨⟨hcfg, hpending, houtbound⟩, (State.rxMany_effect hrx).link, htx, hmix,
    fun hmem => List.not_mem_nil (State.linkDown_mem_of_rxMany hrx hmem)⟩

/-! ## The transmit and control activity (R194) -/

/-- No operation of the control activity carries a time of receipt: the rows of R194 are disjoint. -/
theorem receiveTime_of_control {i : Instr} (hi : Agent.control.issues i = true) : receiveTime i = none := by
  cases i <;> cases hi <;> rfl

/-- An operation of the control activity writes the store, lowers the link or not, sends and answers. -/
theorem exec_control {i : Instr} {s t : State} (hi : Agent.control.issues i = true) (h : exec i s = .next t) :
    ControlEffect s t := by
  rcases exec_cases h with ⟨now, bs, htime, -⟩ | ⟨rfl, -⟩ | ⟨-, heffect⟩
  · cases (receiveTime_of_control hi).symm.trans htime
  · cases hi
  · exact heffect

/-- The control activity notifies of a timeout and of nothing else (R136). -/
theorem exec_control_events {i : Instr} {s t : State} (hi : Agent.control.issues i = true)
    (h : exec i s = .next t) : t.out.events ⊆ [.linkDown] := by
  cases i with
  | ctrlTick now mixEn axes =>
    obtain ⟨-, -, hevents⟩ := execCtrlTick_link h
    rw [hevents]
    split
    · exact List.Subset.refl _
    · exact List.nil_subset _
  | setChannel k v =>
    cases h
    rw [State.chWrite_eq]
    exact List.nil_subset _
  | sendChannels | sendBattery =>
    cases h
    obtain ⟨-, hevents, -⟩ := State.sendFrame_eq _ _ s.begin
    rw [hevents]
    exact List.nil_subset _
  | encode ty payload =>
    simp only [exec, execEncode] at h
    split at h <;> cases h <;> exact List.nil_subset _
  | _ => cases hi

/-- Settles O60: the control effect, and its one notification. -/
theorem controlActivityFrame : Obligations.ControlActivityFrame := by
  intro i s t hi h
  have honly {e : Event} (he : e ≠ .linkDown) : e ∉ t.out.events := fun hmem =>
    he (List.mem_singleton.1 (exec_control_events hi h hmem))
  obtain ⟨⟨ch, up, ob, o, rfl⟩, -, hlink⟩ := exec_control hi h
  exact ⟨⟨rfl, rfl, rfl, rfl, rfl, rfl, fun _ => rfl⟩, rfl, rfl, rfl, rfl, hlink, honly nofun, honly nofun⟩

/-! ## The observer (R194, R50) -/

/-- An operation of the observer empties the outputs and answers a value (R112, R140, R141). -/
theorem exec_observer {i : Instr} {s t : State} (hi : Agent.observer.issues i = true) (h : exec i s = .next t) :
    ∃ r, t = s.begin.answer r := by
  cases i with
  | isLinkUp | getLinkStats =>
    cases h
    exact ⟨_, rfl⟩
  | getChannel k =>
    simp only [exec, execGetChannel] at h
    split at h <;> cases h
    exact ⟨_, rfl⟩
  | _ => cases hi

/-- Settles O58: emptying the outputs and answering a value write the outputs only. -/
theorem observerChangesNothing : Obligations.ObserverChangesNothing := by
  intro i s t hi h
  obtain ⟨r, rfl⟩ := exec_observer hi h
  exact ⟨⟨⟨rfl, rfl, rfl, rfl, rfl, rfl, fun _ => rfl⟩, rfl, rfl, rfl, rfl, rfl, rfl⟩, rfl, rfl⟩

/-! ## The idle block (R195) -/

/-- Settles O47: the idle case of the step. -/
theorem idleStepKeepsAllState : Obligations.IdleStepKeepsAllState := fun _ => step_idle

end Sys2Proof.Machine

/-!
PROOF. The statements of 70_reset_and_hazards.md: a received RC payload transmitted again (R214), RESET (R210), and
the state right after reset (R211).
-/

namespace Sys2Proof.Machine

/-! ## The echo of a received RC frame (R214) -/

/-- The wire conversion gives every wire value back (R106), so a well-formed configuration packs the channels of a
payload into that payload. -/
theorem packRc_unpackRc {c : Config} (h : c.wf = true) {payload : List Byte} (hlen : payload.length = c.rcPayload) :
    packRc c (unpackRc c payload) = payload := by
  have hwire : ∀ w ∈ wireFields c payload, chToWire c (c.toCh (wireToCh c w)) = w := fun w hw => by
    obtain ⟨hback, hfits⟩ := Config.wf_wire h (wireFields_lt hw)
    rw [Config.toCh_of_fits hfits, hback]
  have hfields : (unpackRc c payload).map (chToWire c) = wireFields c payload := by
    rw [unpackRc, List.map_map]
    exact (List.map_congr_left hwire).trans (List.map_id _)
  rw [packRc, hfields, packWire_wireFields h hlen]

/-- Settles O22: the frame's row leaves the unpacked payload in the store (R131), and SEND_CHANNELS packs the store
(R113). -/
theorem sendChannelsEchoesReceivedFrame : Obligations.SendChannelsEchoesReceivedFrame := by
  intro s a payload now hwf hbuf hs hlen
  obtain ⟨u, hu, -, ⟨hcfg, -, -⟩, -, heffect⟩ := rcFrameRowCompletes s a _ payload now hwf hbuf hs hlen
  rw [if_pos rfl] at heffect
  obtain ⟨-, hch, -, -⟩ := heffect
  obtain ⟨frame, hframe, hsend⟩ := sendChannelsTransmitsStore u
  refine ⟨u, _, hu, hsend, ?_⟩
  rw [hcfg, hch, packRc_unpackRc hwf hlen] at hframe
  exact hframe

/-! ## RESET and the state after reset (R210, R211) -/

/-- Every channel powers on at `CH_CENTER`, which fits `CH_W` bits (R211, R6). -/
theorem State.powerOn_chRead {c : Config} (h : c.wfRange = true) {i : Nat} (h1 : 1 ≤ i) (hn : i ≤ c.nCh) :
    (State.powerOn c).chRead i = some c.chCenter := by
  obtain ⟨-, hlo, hhi, -⟩ := Config.wfRange_parts h
  have hindex : (State.powerOn c).cfg.chanIndex i = true := Config.chanIndex_iff.2 ⟨h1, hn⟩
  have hentry : i - 1 < c.nCh := by omega
  rw [State.chRead, if_pos hindex, ← Config.toCh_of_range h hlo hhi]
  exact List.getElem?_replicate_of_lt hentry

/-- Settles O27: outside the boundary RESET is the power-on state of the same configuration. -/
theorem resetRestoresSpecifiedState : Obligations.ResetRestoresSpecifiedState := fun s hrange =>
  ⟨s.resetBlock, rfl, fun i h1 hn => (State.chRead_congr rfl rfl i).trans (State.powerOn_chRead hrange h1 hn),
    s.resetBlock_rxState, s.resetBlock_linkUp, s.resetBlock_ls, s.resetBlock_out, s.resetBlock_cfg⟩

/-- Settles O28: RESET answers the block's reset, which keeps the boundary's three fields. -/
theorem resetLeavesBoundary : Obligations.ResetLeavesBoundary := by
  intro s t h
  cases h
  exact ⟨s.resetBlock_cfg, s.resetBlock_pending, s.resetBlock_outbound⟩

/-- Settles O29: the power-on state under R6's defaults. -/
theorem stateAfterReset : Obligations.StateAfterReset :=
  ⟨fun _ => State.powerOn_chRead (Config.wf_range Config.wf_default), List.length_replicate, rfl, rfl, rfl, rfl⟩

end Sys2Proof.Machine
